-- ==== Sys2Proof/Word.lean ====
section
/-! DEFINITION. The words of the block (00_scope.md R7, R8) and the command transaction of the port
(30_encoding.md R80). Every value is unsigned. -/

namespace Sys2Proof

/-- One byte of the device, of `WBYTES` or of `RBYTES`. -/
abbrev Byte := BitVec 8

/-- A 16-bit window register, device address or count (00_scope.md R7, `ADDR_WIDTH`). -/
abbrev Half := BitVec 16

/-- The accumulator and the command word (00_scope.md R7, `ACC_WIDTH`; 30_encoding.md R81). -/
abbrev Word := BitVec 32

/-- `WDATA` and `RDATA` (00_scope.md R7). -/
abbrev Data := BitVec 64

/-- The widths of a typed transfer, in bytes: `TYPED_WIDTHS` of 00_scope.md R7, 30_encoding.md R86. -/
inductive Width where
  | w1
  | w2
  | w4
  | w8
deriving DecidableEq, Repr

/-- One command transaction, what the host sends on the command port (30_encoding.md R80). -/
structure Transaction where
  cmd    : Word
  wdata  : Data
  wbytes : List Byte
deriving DecidableEq, Repr

end Sys2Proof
end

