-- ==== Sys2Proof/Syntax.lean ====
section
/-! DEFINITION. The commands of CRCW-1 (30_encoding.md R83), one constructor per row of the opcode
map, with its operands already assembled as R82 says. -/

namespace Sys2Proof

/-- One command with its operands (30_encoding.md R82, R83). -/
inductive Instr where
  /-- `nop` (42_system.md R160). -/
  | nop
  /-- `crc.init` (40_crc.md R105). -/
  | crcInit
  /-- `crc.app b` (40_crc.md R106). -/
  | crcApp (b : Byte)
  /-- `crc.val` (40_crc.md R107). -/
  | crcVal
  /-- `crc.acc` (40_crc.md R108). -/
  | crcAcc
  /-- `crc.ld v` (40_crc.md R109). -/
  | crcLd (v : Word)
  /-- `win.open.r start, len` (41_window.md R121). -/
  | winOpenR (start len : Half)
  /-- `win.open.rw start, len` (41_window.md R122). -/
  | winOpenRw (start len : Half)
  /-- `win.close` (41_window.md R123). -/
  | winClose
  /-- `win.seek c` (41_window.md R124). -/
  | winSeek (c : Half)
  /-- `win.tell` (41_window.md R125). -/
  | winTell
  /-- `win.avail` (41_window.md R126). -/
  | winAvail
  /-- `win.rd w` (41_window.md R127). -/
  | winRd (w : Width)
  /-- `win.wr w, v` (41_window.md R128). -/
  | winWr (w : Width) (v : Data)
  /-- `win.rdb k` (41_window.md R129). -/
  | winRdb (k : Half)
  /-- `win.wrb k, bytes` (41_window.md R130); `k` is the length of `bytes` (30_encoding.md R87). -/
  | winWrb (bytes : List Byte)
  /-- `win.info` (41_window.md R131). -/
  | winInfo
  /-- `blk.fstat` (42_system.md R161). -/
  | blkFstat
deriving DecidableEq, Repr

end Sys2Proof
end

