-- ==== Sys2Proof/WellFormed.lean ====
section
/-! DEFINITION. The operand ranges that the types of `Instr` do not already fix (30_encoding.md R82,
R89), and the size of a transaction's byte list (R80). -/

namespace Sys2Proof

/-- `MAX_BYTES`, the largest count of one byte-array transfer (00_scope.md R7). -/
def maxBytes : Nat := 65535

/-- Is `v` a value of the width (`v < 2^(8w)`, 30_encoding.md R89)? -/
def Width.holds (w : Width) (v : Data) : Bool :=
  match w with
  | .w1 => v.toNat < 2 ^ 8
  | .w2 => v.toNat < 2 ^ 16
  | .w4 => v.toNat < 2 ^ 32
  | .w8 => true

/-- Is every operand in its range (30_encoding.md R82, R89)? -/
def Instr.wellFormed (i : Instr) : Bool :=
  match i with
  | .nop => true
  | .crcInit => true
  | .crcApp _ => true
  | .crcVal => true
  | .crcAcc => true
  | .crcLd _ => true
  | .winOpenR _ _ => true
  | .winOpenRw _ _ => true
  | .winClose => true
  | .winSeek _ => true
  | .winTell => true
  | .winAvail => true
  | .winRd _ => true
  | .winWr w v => w.holds v
  | .winRdb _ => true
  | .winWrb bytes => decide (bytes.length ≤ maxBytes)
  | .winInfo => true
  | .blkFstat => true

/-- `WBYTES` is a list of 0..65535 bytes (30_encoding.md R80). -/
def Transaction.wellFormed (t : Transaction) : Bool := decide (t.wbytes.length ≤ maxBytes)

end Sys2Proof
end

