-- ==== Sys2Proof/Decode.lean ====
section
/-! DEFINITION. The command word, its decoder and its encoder (30_encoding.md R80–R88), and the
opcode map of R83 as data. -/

namespace Sys2Proof

/-! ## The fields of the command word (R81) -/

/-- `op = cmd[7:0]` (R81). -/
def opField (cmd : Word) : BitVec 8 := cmd.extractLsb' 0 8

/-- `n = cmd[15:8]` (R81). -/
def nField (cmd : Word) : BitVec 8 := cmd.extractLsb' 8 8

/-- `a = cmd[31:16]` (R81). -/
def aField (cmd : Word) : Half := cmd.extractLsb' 16 16

/-- The command word of its three fields (R81). -/
def cmdWord (a : Half) (n op : BitVec 8) : Word :=
  (a.setWidth 32 <<< 16) ||| (n.setWidth 32 <<< 8) ||| op.setWidth 32

/-! ## Widths (R86) -/

/-- The number of bytes of a typed transfer. -/
def Width.bytes (w : Width) : Nat :=
  match w with
  | .w1 => 1
  | .w2 => 2
  | .w4 => 4
  | .w8 => 8

/-- The width field of a width. -/
def Width.field (w : Width) : BitVec 8 := BitVec.ofNat 8 w.bytes

/-- The width a width field stands for; every value but 1, 2, 4, 8 is undefined (R86). -/
def Width.ofField (n : BitVec 8) : Option Width :=
  match n with
  | 1#8 => some .w1
  | 2#8 => some .w2
  | 4#8 => some .w4
  | 8#8 => some .w8
  | _ => none

/-- `WDATA[8w-1:0]`, zero-extended: the bits above are ignored (R82). -/
def Width.truncate (w : Width) (v : Data) : Data :=
  match w with
  | .w1 => (v.extractLsb' 0 8).setWidth 64
  | .w2 => (v.extractLsb' 0 16).setWidth 64
  | .w4 => (v.extractLsb' 0 32).setWidth 64
  | .w8 => v

/-! ## Decoding -/

/-- Why a transaction is undefined: the four kinds of 30_encoding.md R85. -/
inductive Undefined where
  /-- The `op` field is not in the opcode map (R85). -/
  | unassignedOpcode
  /-- A reserved bit is set (R84). -/
  | reservedField
  /-- The width field is not 1, 2, 4 or 8 (R86). -/
  | illegalWidth
  /-- The length of `WBYTES` is not the one the command needs (R87). -/
  | byteListLength
deriving DecidableEq, Repr

/-- The command `i`, if the reserved bits of the word are 0 (R84) and `WBYTES` has the length the
command needs (R87). -/
def acceptIf (reservedClear lengthOk : Bool) (i : Instr) : Except Undefined Instr :=
  if !reservedClear then .error .reservedField
  else if !lengthOk then .error .byteListLength
  else .ok i

/-- A typed transfer: `a` is reserved, `n` is its width (R84, R86), `WBYTES` is empty (R87). -/
def acceptTyped (tx : Transaction) (make : Width → Instr) : Except Undefined Instr :=
  match Width.ofField (nField tx.cmd) with
  | none => if aField tx.cmd == 0 then .error .illegalWidth else .error .reservedField
  | some w => acceptIf (aField tx.cmd == 0) tx.wbytes.isEmpty (make w)

/-- The command of a transaction, or why it has none (30_encoding.md R82–R87). -/
def decode (tx : Transaction) : Except Undefined Instr :=
  let n := nField tx.cmd
  let a := aField tx.cmd
  let plain := n == 0 && a == 0
  let noBytes := tx.wbytes.isEmpty
  match opField tx.cmd with
  | 0x00#8 => acceptIf plain noBytes .nop
  | 0x01#8 => acceptIf plain noBytes .crcInit
  | 0x02#8 => acceptIf (n == 0 && a.extractLsb' 8 8 == 0) noBytes (.crcApp (a.extractLsb' 0 8))
  | 0x03#8 => acceptIf plain noBytes .crcVal
  | 0x04#8 => acceptIf plain noBytes .crcAcc
  | 0x05#8 => acceptIf plain noBytes (.crcLd (tx.wdata.extractLsb' 0 32))
  | 0x10#8 => acceptIf (n == 0) noBytes (.winOpenR a (tx.wdata.extractLsb' 0 16))
  | 0x11#8 => acceptIf (n == 0) noBytes (.winOpenRw a (tx.wdata.extractLsb' 0 16))
  | 0x12#8 => acceptIf plain noBytes .winClose
  | 0x13#8 => acceptIf (n == 0) noBytes (.winSeek a)
  | 0x14#8 => acceptIf plain noBytes .winTell
  | 0x15#8 => acceptIf plain noBytes .winAvail
  | 0x16#8 => acceptTyped tx .winRd
  | 0x17#8 => acceptTyped tx (fun w => .winWr w (w.truncate tx.wdata))
  | 0x18#8 => acceptIf (n == 0) noBytes (.winRdb a)
  | 0x19#8 => acceptIf (n == 0) (tx.wbytes.length == a.toNat) (.winWrb tx.wbytes)
  | 0x1A#8 => acceptIf plain noBytes .winInfo
  | 0x30#8 => acceptIf plain noBytes .blkFstat
  | _ => .error .unassignedOpcode

/-! ## Encoding (R89) -/

/-- The command word of a command (30_encoding.md R83, R89). Every bit of a defined word is fixed or
an operand, so this is the very word the host sent; fault entry records it (60_exceptions.md R174). -/
def Instr.cmd (i : Instr) : Word :=
  match i with
  | .nop => cmdWord 0 0 0x00
  | .crcInit => cmdWord 0 0 0x01
  | .crcApp b => cmdWord (b.setWidth 16) 0 0x02
  | .crcVal => cmdWord 0 0 0x03
  | .crcAcc => cmdWord 0 0 0x04
  | .crcLd _ => cmdWord 0 0 0x05
  | .winOpenR start _ => cmdWord start 0 0x10
  | .winOpenRw start _ => cmdWord start 0 0x11
  | .winClose => cmdWord 0 0 0x12
  | .winSeek c => cmdWord c 0 0x13
  | .winTell => cmdWord 0 0 0x14
  | .winAvail => cmdWord 0 0 0x15
  | .winRd w => cmdWord 0 w.field 0x16
  | .winWr w _ => cmdWord 0 w.field 0x17
  | .winRdb k => cmdWord k 0 0x18
  | .winWrb bytes => cmdWord (BitVec.ofNat 16 bytes.length) 0 0x19
  | .winInfo => cmdWord 0 0 0x1A
  | .blkFstat => cmdWord 0 0 0x30

/-- `WDATA` of a command: 0 where the command reads none (30_encoding.md R89). -/
def Instr.wdata (i : Instr) : Data :=
  match i with
  | .crcLd v => v.setWidth 64
  | .winOpenR _ len => len.setWidth 64
  | .winOpenRw _ len => len.setWidth 64
  | .winWr _ v => v
  | .nop | .crcInit | .crcApp _ | .crcVal | .crcAcc | .winClose | .winSeek _ | .winTell
  | .winAvail | .winRd _ | .winRdb _ | .winWrb _ | .winInfo | .blkFstat => 0

/-- `WBYTES` of a command: empty for all but `win.wrb` (30_encoding.md R89). -/
def Instr.wbytes (i : Instr) : List Byte :=
  match i with
  | .winWrb bytes => bytes
  | .nop | .crcInit | .crcApp _ | .crcVal | .crcAcc | .crcLd _ | .winOpenR _ _ | .winOpenRw _ _
  | .winClose | .winSeek _ | .winTell | .winAvail | .winRd _ | .winWr _ _ | .winRdb _ | .winInfo
  | .blkFstat => []

/-- The transaction of a command (30_encoding.md R89). -/
def encode (i : Instr) : Transaction := { cmd := i.cmd, wdata := i.wdata, wbytes := i.wbytes }

/-! ## The opcode map as data (R83) -/

/-- A row of the opcode map: a word selects it when `cmd & mask = match` (30_encoding.md R83). -/
structure OpRow where
  matchBits : Word
  mask      : Word
deriving DecidableEq, Repr

/-- Does the word select the row? -/
def OpRow.selects (r : OpRow) (cmd : Word) : Bool := cmd &&& r.mask == r.matchBits

/-- The row of a command (30_encoding.md R83, columns match and mask). -/
def Instr.row (i : Instr) : OpRow :=
  match i with
  | .nop => ⟨0x00000000, 0xFFFFFFFF⟩
  | .crcInit => ⟨0x00000001, 0xFFFFFFFF⟩
  | .crcApp _ => ⟨0x00000002, 0xFF00FFFF⟩
  | .crcVal => ⟨0x00000003, 0xFFFFFFFF⟩
  | .crcAcc => ⟨0x00000004, 0xFFFFFFFF⟩
  | .crcLd _ => ⟨0x00000005, 0xFFFFFFFF⟩
  | .winOpenR _ _ => ⟨0x00000010, 0x0000FFFF⟩
  | .winOpenRw _ _ => ⟨0x00000011, 0x0000FFFF⟩
  | .winClose => ⟨0x00000012, 0xFFFFFFFF⟩
  | .winSeek _ => ⟨0x00000013, 0x0000FFFF⟩
  | .winTell => ⟨0x00000014, 0xFFFFFFFF⟩
  | .winAvail => ⟨0x00000015, 0xFFFFFFFF⟩
  | .winRd _ => ⟨0x00000016, 0xFFFF00FF⟩
  | .winWr _ _ => ⟨0x00000017, 0xFFFF00FF⟩
  | .winRdb _ => ⟨0x00000018, 0x0000FFFF⟩
  | .winWrb _ => ⟨0x00000019, 0x0000FFFF⟩
  | .winInfo => ⟨0x0000001A, 0xFFFFFFFF⟩
  | .blkFstat => ⟨0x00000030, 0xFFFFFFFF⟩

/-- The rows of the opcode map, in the order of R83. -/
def opcodeRows : List OpRow :=
  [Instr.row .nop, Instr.row .crcInit, Instr.row (.crcApp 0), Instr.row .crcVal,
    Instr.row .crcAcc, Instr.row (.crcLd 0)] ++
  [Instr.row (.winOpenR 0 0), Instr.row (.winOpenRw 0 0), Instr.row .winClose,
    Instr.row (.winSeek 0), Instr.row .winTell, Instr.row .winAvail, Instr.row (.winRd .w1),
    Instr.row (.winWr .w1 0), Instr.row (.winRdb 0), Instr.row (.winWrb []),
    Instr.row .winInfo] ++
  [Instr.row .blkFstat]

/-! ## Words as the opcode table numbers them -/

/-- The transaction of a table word: the command word, with every operand that the table gives no
bits at zero: `WDATA` is 0, and the byte list of `win.wrb` is as many zero bytes as the word's count
field asks for (log entry 18). -/
def tableTransaction (nbits w : Nat) : Transaction :=
  let cmd := BitVec.ofNat 32 (w % 2 ^ nbits)
  { cmd := cmd
    wdata := 0
    wbytes := if opField cmd == 0x19#8 then List.replicate (aField cmd).toNat 0 else [] }

/-- The command the decoder reads from a table word. No command is longer than one 32-bit word
(30_encoding.md R81), so a longer one has none. -/
def decodeTableWord (nbits w : Nat) : Option Instr :=
  if w % 2 ^ nbits < 2 ^ 32 then (decode (tableTransaction nbits w)).toOption else none

end Sys2Proof
end

