-- ==== Sys2Proof/Machine/CrcFn.lean ====
section
/-! DEFINITION. The CRC function: the nibble table (10_state.md R22), the nibble step, the byte step
and the CRC of a sequence (40_crc.md R100–R103). -/

namespace Sys2Proof.Machine

/-- `POLY`, the reflected polynomial (00_scope.md R7). -/
def poly : Word := 0xEDB88320

/-- `INIT`, the initial accumulator (00_scope.md R7). -/
def crcInitial : Word := 0xFFFFFFFF

/-- One bit of the reflected CRC: shift right, and XOR in the polynomial when the bit shifted out
is 1 (the body of `step4`, 10_state.md R22). -/
def crcBit (c : Word) : Word := (c >>> 1) ^^^ (if c.getLsbD 0 then poly else 0)

/-- `step4(c)`, four bits of the reflected CRC (10_state.md R22). -/
def step4 (c : Word) : Word := crcBit (crcBit (crcBit (crcBit c)))

/-- The nibble table `T`, its entries as 10_state.md R22 lists them. -/
def crcTable : Vector Word 16 :=
  #v[0x00000000, 0x1DB71064, 0x3B6E20C8, 0x26D930AC,
     0x76DC4190, 0x6B6B51F4, 0x4DB26158, 0x5005713C,
     0xEDB88320, 0xF00F9344, 0xD6D6A3E8, 0xCB61B38C,
     0x9B64C2B0, 0x86D3D2D4, 0xA00AE278, 0xBDBDF21C]

/-- `T[i]` (10_state.md R22). -/
def tableEntry (i : BitVec 4) : Word := crcTable[i.toNat]'i.isLt

/-- `nib(c, x) = T[(c ^ x) & 0xF] ^ (c >> 4)` (40_crc.md R100). -/
def nib (c : Word) (x : BitVec 4) : Word :=
  tableEntry ((c ^^^ x.setWidth 32).extractLsb' 0 4) ^^^ (c >>> 4)

/-- `AppendByte(c, b)`: the low nibble first (40_crc.md R101). -/
def appendByte (c : Word) (b : Byte) : Word :=
  nib (nib c (b.extractLsb' 0 4)) (b.extractLsb' 4 4)

/-- `bitwise(c, b)`, the byte step of the bitwise definition (40_crc.md R102). -/
def bitwiseByte (c : Word) (b : Byte) : Word := step4 (step4 (c ^^^ b.setWidth 32))

/-- `Fold(c, s)`: the accumulator after a byte sequence (40_crc.md R103). -/
def crcFold (c : Word) (bytes : List Byte) : Word :=
  match bytes with
  | [] => c
  | b :: rest => crcFold (appendByte c b) rest

/-- `VALUE` of an accumulator: its complement if `VALUE_INVERT` (10_state.md R23). -/
def crcView (invert : Bool) (c : Word) : Word := if invert then ~~~c else c

end Sys2Proof.Machine
end

