-- ==== Sys2Proof/Config.lean ====
section
/-! DEFINITION. The two parameters the spec leaves to the implementation (00_scope.md R7): the model
takes them as arguments, so they stand in the state as data that no step changes, and a statement
about every state is a statement about every value of both. -/

namespace Sys2Proof

/-- The parameters of one block (00_scope.md R7; 92_eei_decisions.md D6, D25). -/
structure Config where
  /-- `VALUE_INVERT`: does `crc.val` return the complement of `ACC`? -/
  valueInvert : Bool
  /-- `DEV_N`: the device's capacity in bytes. -/
  devN : Nat
deriving DecidableEq, Repr

/-- The largest `DEV_N` the platform may choose (00_scope.md R7). -/
def Config.maxDevN : Nat := 65534

/-- `0 <= DEV_N <= 65534`, a duty of the platform (00_scope.md R7; 70_reset_and_hazards.md R204). -/
abbrev Config.wf (c : Config) : Prop := c.devN ≤ Config.maxDevN

/-- The parameters of the reset state: `VALUE_INVERT` at the spec's default `true` (R7), and
`DEV_N = 64`, the value of every vector of 95_test_vectors.md.
DESIGN CHOICE: the spec gives `DEV_N` no default (log entries 2, 3). -/
def Config.default : Config := { valueInvert := true, devN := 64 }

end Sys2Proof
end

