-- ==== Sys2Proof/Machine/State.lean ====
section
/-! DEFINITION. The state of the block (10_state.md R20–R33), of the device beyond its port
(20_memory.md R50) and of its command port (30_encoding.md R80), as plain data. -/

namespace Sys2Proof.Machine

/-- The device's bytes: cells with strictly rising addresses, none of them holding the byte that an
unlisted address reads as. -/
abbrev Memory := List Host.Cell

/-- The outcome of a command (60_exceptions.md R171; codes 7–15 are never produced). -/
inductive Status where
  | ok
  | outOfRange
  | resourceExhausted
  | readOnly
  | noWindow
  | illegal
  | faulted
deriving DecidableEq, Repr

/-- Why the block faulted (60_exceptions.md R173; codes 3–255 are never raised). -/
inductive FaultCause where
  | winBounds
  | devRange
deriving DecidableEq, Repr

/-- What the checks of a command decide (60_exceptions.md R178, step 3). -/
inductive Verdict where
  /-- Every check passed: the command has its effects. -/
  | run
  /-- The command ends with a failure status. -/
  | fail (st : Status)
  /-- The command raises a fault. -/
  | raise (cause : FaultCause)
deriving DecidableEq, Repr

/-- What the block answers to one command (30_encoding.md R80). -/
structure Response where
  status : BitVec 4
  rdata  : Data
  rbytes : List Byte
deriving DecidableEq, Repr

/-- One single-byte operation of the block on the device port (20_memory.md R51). -/
inductive Access where
  | read (addr : Nat)
  | write (addr : Nat) (byte : Byte)
deriving DecidableEq, Repr

/-- What the outside world does to the block, one thing at a time (70_reset_and_hazards.md R205). -/
inductive Input where
  /-- The host issues a command (30_encoding.md R80). -/
  | command (tx : Transaction)
  /-- The platform asserts reset between two commands (R200, R201). -/
  | reset
  /-- The platform asserts reset during a command (R200), before its transfer or, with `transferred`,
  after it: a transfer in progress shows only through power loss (10_state.md R32; log entry 8). -/
  | resetDuring (tx : Transaction) (transferred : Bool)
  /-- Power is lost between two commands, and comes back (R202). -/
  | powerLoss
  /-- Power is lost during a command, when `done` of its device accesses have been made, and comes
  back (R202). -/
  | powerLossDuring (tx : Transaction) (done : Nat)
  /-- The host writes the device directly, between two commands (20_memory.md R69;
  70_reset_and_hazards.md R209). -/
  | hostWrite (addr : Half) (byte : Byte)
deriving DecidableEq, Repr

/-- The machine. The first eleven fields are the block's registers (10_state.md R20); the others are
the model's own: the device, the two parameters, and the two ports. -/
structure State where
  /-- `ACC` (R21). -/
  acc : Word
  /-- `VALID` (R24). -/
  valid : Bool
  /-- `WRITABLE` (R24). -/
  writable : Bool
  /-- `START` (R24). -/
  start : Half
  /-- `LENGTH` (R24). -/
  length : Half
  /-- `CURSOR` (R24). -/
  cursor : Half
  /-- `RDATA` (R27). -/
  rdata : Data
  /-- `STATUS` (R28). -/
  status : BitVec 4
  /-- `FAULT` (R29). -/
  fault : Bool
  /-- `FAULT_CAUSE` (R29). -/
  faultCause : BitVec 8
  /-- `FAULT_CMD` (R29). -/
  faultCmd : Word
  /-- The device's bytes (20_memory.md R50). -/
  device : Memory
  /-- The parameters of the block and its device (00_scope.md R7); no step changes them. -/
  cfg : Config
  /-- The last response on the command port, if one was sent since reset (30_encoding.md R80). -/
  response : Option Response
  /-- The device accesses of the last command, in the order made (20_memory.md R51, R61). -/
  accesses : List Access
  /-- What the host and the platform do next, earliest first (10_state.md R31). -/
  inputs : List Input
deriving DecidableEq, Repr

/-- Why the machine stops. No command stops it: the block's own faults (60_exceptions.md R173) are
next states. -/
inductive Fault where
  /-- Raised by the input `hostWrite` alone, for an address at or past `DEV_N`: there is no such byte
  (20_memory.md R50), and the spec does not say what the device does. Safe: the machine stops. -/
  | hostWriteOutOfRange
deriving DecidableEq, Repr

/-- Why a command has no meaning. -/
inductive Refusal where
  /-- Raised by `exec` for a command the model does not cover, by its mnemonic; no arm raises it now.
  Safe: the machine stops. -/
  | notModelled (mnemonic : String)
deriving DecidableEq, Repr

/-- The machine right after reset (10_state.md R33), no input waiting. `cfg` and `device` are those
that 95_test_vectors.md starts from; the spec leaves both open (DESIGN CHOICE, log entries 2, 3, 4).
The ports are empty (DESIGN CHOICE, log entries 1, 5, 6). -/
def State.reset : State where
  acc := 0xFFFFFFFF
  valid := false
  writable := false
  start := 0
  length := 0
  cursor := 0
  rdata := 0
  status := 0
  fault := false
  faultCause := 0
  faultCmd := 0
  device := []
  cfg := Config.default
  response := none
  accesses := []
  inputs := []

end Sys2Proof.Machine
end

