-- ==== Sys2Proof/Machine/Flags.lean ====
section
/-! DEFINITION. The codes of the two status registers: `STATUS` and `FAULT_CAUSE`. The block has no
other flags (10_state.md R20). -/

namespace Sys2Proof.Machine

/-- The code of a status in `STATUS` and in the response (60_exceptions.md R171). -/
def Status.code (st : Status) : BitVec 4 :=
  match st with
  | .ok => 0
  | .outOfRange => 1
  | .resourceExhausted => 2
  | .readOnly => 3
  | .noWindow => 4
  | .illegal => 5
  | .faulted => 6

/-- The code of a cause in `FAULT_CAUSE` (60_exceptions.md R173); 0 is no fault since reset. -/
def FaultCause.code (c : FaultCause) : BitVec 8 :=
  match c with
  | .winBounds => 1
  | .devRange => 2

/-- A one-bit register, zero-extended to `RDATA` (41_window.md R131; 42_system.md R161). -/
def bit (b : Bool) : Data := (BitVec.ofBool b).setWidth 64

end Sys2Proof.Machine
end

