-- ==== Sys2Proof/Machine/Memory.lean ====
section
/-! DEFINITION. The device's bytes as data (20_memory.md R50, R52): reading and writing one byte, and
the canonical form that makes equal contents equal lists. -/

namespace Sys2Proof.Machine

/-- What an address that no cell lists reads as. The spec leaves the device's first contents open
(93_implementation_defined.md U5); every image is a list of cells, so this fixes only the image
whose list is empty. DESIGN CHOICE, log entry 4. -/
def Memory.blank : Byte := 0

/-- The byte at an address: reads return the last written value (20_memory.md R52). -/
def Memory.read (m : Memory) (a : Nat) : Byte :=
  match m with
  | [] => Memory.blank
  | (k, v) :: rest => if k = a then v else Memory.read rest a

/-- A cell in front of cells of higher addresses; none for the byte an unlisted address reads as. -/
def Memory.cons (a : Nat) (v : Byte) (m : Memory) : Memory :=
  if v = Memory.blank then m else (a, v) :: m

/-- Writes the byte at an address (20_memory.md R51, `DevWrite`), keeping the canonical form. -/
def Memory.write (m : Memory) (a : Nat) (v : Byte) : Memory :=
  match m with
  | [] => Memory.cons a v []
  | (k, x) :: rest =>
    if a < k then Memory.cons a v ((k, x) :: rest)
    else if a = k then Memory.cons a v rest
    else (k, x) :: Memory.write rest a v

/-- `DevUpdate`: writes the byte only if it differs (20_memory.md R51). The block never issues it
(R53). -/
def Memory.update (m : Memory) (a : Nat) (v : Byte) : Memory :=
  if m.read a = v then m else m.write a v

/-- Are the cells canonical from the address `low` on? -/
def Memory.wfFrom (low : Nat) (m : Memory) : Bool :=
  match m with
  | [] => true
  | (k, v) :: rest => decide (low ≤ k) && v != Memory.blank && Memory.wfFrom (k + 1) rest

/-- The canonical form: addresses strictly rising, no cell at the unlisted byte. -/
def Memory.wf (m : Memory) : Bool := Memory.wfFrom 0 m

/-- Does every cell stand at one of the device's addresses `0 .. n-1` (20_memory.md R50)? -/
def Memory.within (n : Nat) (m : Memory) : Bool := m.all fun c => decide (c.1 < n)

end Sys2Proof.Machine
end

