-- ==== Sys2Proof/Machine/Operands.lean ====
section
/-! DEFINITION. The views and operands the commands read: little-endian bytes (20_memory.md R55–R57),
the window's address and count (R54), the derived views (10_state.md R23, R26), and the packed
register reads (41_window.md R131; 42_system.md R161). -/

namespace Sys2Proof.Machine

/-- `MAX_ADDR` (00_scope.md R7). -/
def maxAddr : Nat := 65534

/-- The `n` low bytes of a value, the least significant first (20_memory.md R56). -/
def bytesOf (n : Nat) (v : Data) : List Byte :=
  match n with
  | 0 => []
  | n + 1 => v.extractLsb' 0 8 :: bytesOf n (v >>> 8)

/-- The value of little-endian bytes, zero-extended (20_memory.md R55). -/
def valueOf (bytes : List Byte) : Data :=
  match bytes with
  | [] => 0
  | b :: rest => b.setWidth 64 ||| (valueOf rest <<< 8)

/-- `VALUE` (10_state.md R23). -/
def State.value (s : State) : Word := crcView s.cfg.valueInvert s.acc

/-- `AVAILABLE = LENGTH - CURSOR`, the bytes left in the window (10_state.md R26). -/
def State.available (s : State) : Half := s.length - s.cursor

/-- The device address of the next byte to transfer, `START + CURSOR` (20_memory.md R54). -/
def State.base (s : State) : Nat := s.start.toNat + s.cursor.toNat

/-- Is `count > LENGTH - CURSOR` (41_window.md R127–R130)? The sum is of integers. -/
def State.exhausted (s : State) (count : Nat) : Bool :=
  decide (s.length.toNat < s.cursor.toNat + count)

/-- Would a transfer of `count` bytes pass the device's end (20_memory.md R60)? A transfer of 0 bytes
needs no check. -/
def State.pastDevice (s : State) (count : Nat) : Bool :=
  decide (1 ≤ count) && decide (s.cfg.devN ≤ s.base + count - 1)

/-- Is `[start, start + len)` a window (41_window.md R121)? The sum is of integers. -/
def windowFits (start len : Half) : Bool :=
  decide (start.toNat ≤ maxAddr) && decide (start.toNat + len.toNat ≤ maxAddr)

/-- The window registers as `win.info` packs them (41_window.md R131). -/
def State.windowInfo (s : State) : Data :=
  s.start.setWidth 64 ||| (s.length.setWidth 64 <<< 16) ||| (s.cursor.setWidth 64 <<< 32) |||
    (bit s.valid <<< 48) ||| (bit s.writable <<< 49)

/-- The fault registers as `blk.fstat` packs them (42_system.md R161). -/
def State.faultInfo (s : State) : Data :=
  s.faultCmd.setWidth 64 ||| (s.faultCause.setWidth 64 <<< 32) ||| (bit s.fault <<< 40)

end Sys2Proof.Machine
end

