-- ==== Sys2Proof/Machine/Ops.lean ====
section
/-! DEFINITION. The operations the commands share: register writes, the device port (20_memory.md
R51–R56), the end of a command (00_scope.md R9), fault entry (60_exceptions.md R174) with reset, its
only exit (R176), and the order of a command's checks (R178). -/

namespace Sys2Proof.Machine

/-! ## Register writes -/

/-- `ACC <- v`. -/
def State.setAcc (s : State) (v : Word) : State := { s with acc := v }

/-- `RDATA <- v` (10_state.md R27). -/
def State.setRdata (s : State) (v : Data) : State := { s with rdata := v }

/-- `CURSOR <- c`. -/
def State.setCursor (s : State) (c : Half) : State := { s with cursor := c }

/-- `CURSOR <- CURSOR + count` (41_window.md R127–R130). -/
def State.advance (s : State) (count : Nat) : State :=
  s.setCursor (s.cursor + BitVec.ofNat 16 count)

/-- Opens a window: all five window registers, the cursor at 0 (41_window.md R121, R122). -/
def State.openWindow (s : State) (canWrite : Bool) (start len : Half) : State :=
  { s with valid := true, writable := canWrite, start := start, length := len, cursor := 0 }

/-- Closes the window: all five window registers at 0 (41_window.md R123). -/
def State.closeWindow (s : State) : State :=
  { s with valid := false, writable := false, start := 0, length := 0, cursor := 0 }

/-! ## The device port -/

/-- The device's byte at an address. -/
def State.byteAt (s : State) (a : Nat) : Byte := s.device.read a

/-- `DevLength()`, the device's capacity (20_memory.md R51). -/
def State.devLength (s : State) : Nat := s.cfg.devN

/-- `DevRead(a)`: one single-byte read (20_memory.md R51). It has no effect on the device (R59). -/
def State.devRead (s : State) (a : Nat) : Byte × State :=
  (s.byteAt a, { s with accesses := s.accesses ++ [.read a] })

/-- `DevWrite(a, v)`: one single-byte write (20_memory.md R51). -/
def State.devWrite (s : State) (a : Nat) (v : Byte) : State :=
  { s with device := s.device.write a v, accesses := s.accesses ++ [.write a v] }

/-- `count` reads in ascending address order (20_memory.md R55; 41_window.md R129). -/
def State.readBytes (s : State) (a : Nat) (count : Nat) : List Byte × State :=
  match count with
  | 0 => ([], s)
  | n + 1 =>
    let first := s.devRead a
    let others := first.2.readBytes (a + 1) n
    (first.1 :: others.1, others.2)

/-- One write a byte, in ascending address order (20_memory.md R56; 41_window.md R130). -/
def State.writeBytes (s : State) (a : Nat) (bytes : List Byte) : State :=
  match bytes with
  | [] => s
  | b :: rest => (s.devWrite a b).writeBytes (a + 1) rest

/-- `MemRead(a, n)` (20_memory.md R55). -/
def State.memRead (s : State) (a : Nat) (n : Nat) : Data × State :=
  let got := s.readBytes a n
  (valueOf got.1, got.2)

/-- `MemWrite(a, n, v)` (20_memory.md R56). -/
def State.memWrite (s : State) (a : Nat) (n : Nat) (v : Data) : State := s.writeBytes a (bytesOf n v)

/-- What single-byte operations do to the device's bytes. -/
def Memory.perform (m : Memory) (accesses : List Access) : Memory :=
  match accesses with
  | [] => m
  | .read _ :: rest => Memory.perform m rest
  | .write a v :: rest => Memory.perform (m.write a v) rest

/-! ## The start and the end of a command -/

/-- A command starts: the device port has made no access for it yet. -/
def State.startCommand (s : State) : State := { s with accesses := [] }

/-- `finish(st)`: `STATUS <- st`, and the response (00_scope.md R9; 30_encoding.md R80). -/
def State.finish (s : State) (st : Status) (rbytes : List Byte) : State :=
  { s with
    status := st.code
    response := some { status := st.code, rdata := s.rdata, rbytes := rbytes } }

/-- Ends a command OK, with no `RBYTES`. -/
def State.finishOk (s : State) : State := s.finish .ok []

/-- `raise Fault(cause)` in the command `i`, the one way into the faulted state
(60_exceptions.md R174). -/
def State.raiseFault (s : State) (cause : FaultCause) (i : Instr) : State :=
  { s with fault := true, faultCause := cause.code, faultCmd := i.cmd }.finish .faulted []

/-- A reset event, the one way out of the faulted state (60_exceptions.md R176): every register at its
reset value, no response, the device and its parameters as they were (70_reset_and_hazards.md R200). -/
def State.resetBlock (s : State) : State :=
  { State.reset with cfg := s.cfg, device := s.device, inputs := s.inputs }

/-! ## The checks of a command (60_exceptions.md R178) -/

/-- A command with no check of its own. -/
def noCheck (_ : State) : Verdict := .run

/-- R178 step 3d for an open: `Fault(WIN_BOUNDS)`. -/
def openCheck (start len : Half) (_ : State) : Verdict :=
  if windowFits start len then .run else .raise .winBounds

/-- R178 step 3a: NO_WINDOW, then `next`. -/
def windowCheck (next : State → Verdict) (s : State) : Verdict :=
  if s.valid then next s else .fail .noWindow

/-- R178 steps 3a, 3c for a seek: NO_WINDOW, then OUT_OF_RANGE (41_window.md R124). -/
def seekCheck (c : Half) : State → Verdict :=
  windowCheck fun s => if s.length.toNat < c.toNat then .fail .outOfRange else .run

/-- R178 steps 3c, 3d for a transfer: RESOURCE_EXHAUSTED, then `Fault(DEV_RANGE)`. -/
def roomCheck (count : Nat) (s : State) : Verdict :=
  if s.exhausted count then .fail .resourceExhausted
  else if s.pastDevice count then .raise .devRange
  else .run

/-- R178 steps 3a, 3c, 3d: the checks of `win.rd` and `win.rdb` (41_window.md R127, R129). -/
def readCheck (count : Nat) : State → Verdict := windowCheck (roomCheck count)

/-- R178 steps 3a–3d: the checks of `win.wr` and `win.wrb` (41_window.md R128, R130). -/
def writeCheck (count : Nat) : State → Verdict :=
  windowCheck fun s => if s.writable then roomCheck count s else .fail .readOnly

/-- Runs the command `i` (60_exceptions.md R178): FAULTED while `FAULT = 1`, then the command's own
checks, then its effect. -/
def runCommand (i : Instr) (check : State → Verdict) (effect : State → State) (s : State) : State :=
  let s := s.startCommand
  if s.fault then s.finish .faulted []
  else
    match check s with
    | .run => effect s
    | .fail st => s.finish st []
    | .raise cause => s.raiseFault cause i

end Sys2Proof.Machine
end

