-- ==== Sys2Proof/Machine/Block.lean ====
section
/-! DEFINITION. The block control commands (42_system.md). -/

namespace Sys2Proof.Machine

/-- `nop` (42_system.md R160). -/
def execNop (s : State) : Host.Outcome State Fault Refusal :=
  .next (runCommand .nop noCheck (fun s => s.finishOk) s)

/-- `blk.fstat`, the one command that runs while `FAULT = 1` (42_system.md R161;
60_exceptions.md R175). -/
def execBlkFstat (s : State) : Host.Outcome State Fault Refusal :=
  .next (s.startCommand.setRdata s.faultInfo).finishOk

end Sys2Proof.Machine
end

