-- ==== Sys2Proof/Machine/Crc.lean ====
section
/-! DEFINITION. The CRC unit commands (40_crc.md). None has a check of its own (R110). -/

namespace Sys2Proof.Machine

/-- `crc.init` (40_crc.md R105). -/
def execCrcInit (s : State) : Host.Outcome State Fault Refusal :=
  .next (runCommand .crcInit noCheck (fun s => (s.setAcc crcInitial).finishOk) s)

/-- `crc.app b` (40_crc.md R106). -/
def execCrcApp (b : Byte) (s : State) : Host.Outcome State Fault Refusal :=
  .next (runCommand (.crcApp b) noCheck (fun s => (s.setAcc (appendByte s.acc b)).finishOk) s)

/-- `crc.val` (40_crc.md R107). -/
def execCrcVal (s : State) : Host.Outcome State Fault Refusal :=
  .next (runCommand .crcVal noCheck (fun s => (s.setRdata (s.value.setWidth 64)).finishOk) s)

/-- `crc.acc` (40_crc.md R108). -/
def execCrcAcc (s : State) : Host.Outcome State Fault Refusal :=
  .next (runCommand .crcAcc noCheck (fun s => (s.setRdata (s.acc.setWidth 64)).finishOk) s)

/-- `crc.ld v` (40_crc.md R109). -/
def execCrcLd (v : Word) (s : State) : Host.Outcome State Fault Refusal :=
  .next (runCommand (.crcLd v) noCheck (fun s => (s.setAcc v).finishOk) s)

end Sys2Proof.Machine
end

