-- ==== Sys2Proof/Machine/Window.lean ====
section
/-! DEFINITION. The window unit commands (41_window.md). -/

namespace Sys2Proof.Machine

/-- `win.open.r start, len` (41_window.md R121). -/
def execWinOpenR (start len : Half) (s : State) : Host.Outcome State Fault Refusal :=
  .next (runCommand (.winOpenR start len) (openCheck start len)
    (fun s => (s.openWindow false start len).finishOk) s)

/-- `win.open.rw start, len` (41_window.md R122). -/
def execWinOpenRw (start len : Half) (s : State) : Host.Outcome State Fault Refusal :=
  .next (runCommand (.winOpenRw start len) (openCheck start len)
    (fun s => (s.openWindow true start len).finishOk) s)

/-- `win.close` (41_window.md R123). -/
def execWinClose (s : State) : Host.Outcome State Fault Refusal :=
  .next (runCommand .winClose noCheck (fun s => s.closeWindow.finishOk) s)

/-- `win.seek c` (41_window.md R124). -/
def execWinSeek (c : Half) (s : State) : Host.Outcome State Fault Refusal :=
  .next (runCommand (.winSeek c) (seekCheck c) (fun s => (s.setCursor c).finishOk) s)

/-- `win.tell` (41_window.md R125). -/
def execWinTell (s : State) : Host.Outcome State Fault Refusal :=
  .next (runCommand .winTell (windowCheck noCheck)
    (fun s => (s.setRdata (s.cursor.setWidth 64)).finishOk) s)

/-- `win.avail` (41_window.md R126). -/
def execWinAvail (s : State) : Host.Outcome State Fault Refusal :=
  .next (runCommand .winAvail (windowCheck noCheck)
    (fun s => (s.setRdata (s.available.setWidth 64)).finishOk) s)

/-- `win.rd w` (41_window.md R127). -/
def execWinRd (w : Width) (s : State) : Host.Outcome State Fault Refusal :=
  .next (runCommand (.winRd w) (readCheck w.bytes)
    (fun s =>
      let got := s.memRead s.base w.bytes
      ((got.2.setRdata got.1).advance w.bytes).finishOk) s)

/-- `win.wr w, v` (41_window.md R128). -/
def execWinWr (w : Width) (v : Data) (s : State) : Host.Outcome State Fault Refusal :=
  .next (runCommand (.winWr w v) (writeCheck w.bytes)
    (fun s => ((s.memWrite s.base w.bytes v).advance w.bytes).finishOk) s)

/-- `win.rdb k` (41_window.md R129). For `k = 0` no check of the device is made, no byte is read and
the cursor stays. -/
def execWinRdb (k : Half) (s : State) : Host.Outcome State Fault Refusal :=
  .next (runCommand (.winRdb k) (readCheck k.toNat)
    (fun s =>
      let got := s.readBytes s.base k.toNat
      (got.2.advance k.toNat).finish .ok got.1) s)

/-- `win.wrb k, bytes`, `k` the length of `bytes` (41_window.md R130). For `k = 0` no check of the
device is made, no byte is written and the cursor stays. -/
def execWinWrb (bytes : List Byte) (s : State) : Host.Outcome State Fault Refusal :=
  .next (runCommand (.winWrb bytes) (writeCheck bytes.length)
    (fun s => ((s.writeBytes s.base bytes).advance bytes.length).finishOk) s)

/-- `win.info` (41_window.md R131). -/
def execWinInfo (s : State) : Host.Outcome State Fault Refusal :=
  .next (runCommand .winInfo noCheck (fun s => (s.setRdata s.windowInfo).finishOk) s)

end Sys2Proof.Machine
end

