-- ==== Sys2Proof/Machine/Dispatch.lean ====
section
/-! DEFINITION. One arm per command (30_encoding.md R83). -/

namespace Sys2Proof.Machine

def exec (i : Instr) (s : State) : Host.Outcome State Fault Refusal :=
  match i with
  | .nop => Sys2Proof.Machine.execNop s
  | .crcInit => Sys2Proof.Machine.execCrcInit s
  | .crcApp b => Sys2Proof.Machine.execCrcApp b s
  | .crcVal => Sys2Proof.Machine.execCrcVal s
  | .crcAcc => Sys2Proof.Machine.execCrcAcc s
  | .crcLd v => Sys2Proof.Machine.execCrcLd v s
  | .winOpenR start len => Sys2Proof.Machine.execWinOpenR start len s
  | .winOpenRw start len => Sys2Proof.Machine.execWinOpenRw start len s
  | .winClose => Sys2Proof.Machine.execWinClose s
  | .winSeek c => Sys2Proof.Machine.execWinSeek c s
  | .winTell => Sys2Proof.Machine.execWinTell s
  | .winAvail => Sys2Proof.Machine.execWinAvail s
  | .winRd w => Sys2Proof.Machine.execWinRd w s
  | .winWr w v => Sys2Proof.Machine.execWinWr w v s
  | .winRdb k => Sys2Proof.Machine.execWinRdb k s
  | .winWrb bytes => Sys2Proof.Machine.execWinWrb bytes s
  | .winInfo => Sys2Proof.Machine.execWinInfo s
  | .blkFstat => Sys2Proof.Machine.execBlkFstat s

end Sys2Proof.Machine
end

