-- ==== Sys2Proof/Machine/Port.lean ====
section
/-! DEFINITION. What one input of the outside world does: a command transaction (30_encoding.md R80,
60_exceptions.md R178), a reset or a power loss (70_reset_and_hazards.md R200–R202), a direct host
write (R209). -/

namespace Sys2Proof.Machine

/-- One command transaction, as R178 orders it. A defined command carries the fault block in its own
meaning; an undefined one ends FAULTED while `FAULT = 1` (60_exceptions.md R175) and ILLEGAL
otherwise (42_system.md R162). -/
def transact (tx : Transaction) (s : State) : Host.Outcome State Fault Refusal :=
  match decode tx with
  | .ok i => exec i s
  | .error _ => .next (s.startCommand.finish (if s.fault then .faulted else .illegal) [])

/-- A command that never ends: of the device accesses it would have made, those that `cut` keeps are
performed, the registers go to their reset values and no response is sent
(70_reset_and_hazards.md R200, R202). -/
def interrupt (tx : Transaction) (cut : List Access → List Access) (s : State) :
    Host.Outcome State Fault Refusal :=
  match transact tx s with
  | .next t =>
    let performed := cut t.accesses
    .next { ({ s with device := s.device.perform performed } : State).resetBlock with
      accesses := performed }
  | .fault r => .fault r
  | .refused r => .refused r

/-- Power loss after `done` device accesses: exactly those have taken effect, and the device keeps every
byte already written (70_reset_and_hazards.md R202). -/
def powerLossCut (done : Nat) (accesses : List Access) : List Access := accesses.take done

/-- Reset during a command: its transfer has not begun or is complete, since a transfer in progress
becomes visible only through power loss (10_state.md R32; DEDUCED, log entry 8). -/
def resetCut (transferred : Bool) (accesses : List Access) : List Access :=
  if transferred then accesses else []

/-- A direct write of the device by the host (20_memory.md R69). There is no byte at or past `DEV_N`
(R50). -/
def hostWrite (a : Half) (v : Byte) (s : State) : Host.Outcome State Fault Refusal :=
  if a.toNat < s.devLength then .next { s with device := s.device.write a.toNat v }
  else .fault .hostWriteOutOfRange

/-- One input. -/
def takeInput (x : Input) (s : State) : Host.Outcome State Fault Refusal :=
  match x with
  | .command tx => transact tx s
  | .reset => .next s.resetBlock
  | .resetDuring tx transferred => interrupt tx (resetCut transferred) s
  | .powerLoss => .next s.resetBlock
  | .powerLossDuring tx done => interrupt tx (powerLossCut done) s
  | .hostWrite a v => hostWrite a v s

/-- The machine with one more input, to come next. -/
def State.withInput (s : State) (x : Input) : State := { s with inputs := x :: s.inputs }

end Sys2Proof.Machine
end

