-- ==== Sys2Proof/Machine/Step.lean ====
section
/-! DEFINITION. One step: the next input of the outside world. The block has no program counter and
fetches nothing (10_state.md R31); it waits for commands (70_reset_and_hazards.md R203). -/

namespace Sys2Proof.Machine

/-- One step. With no input waiting the block is idle and holds its registers
(60_exceptions.md R185). -/
def step (s : State) : Host.Outcome State Fault Refusal :=
  match s.inputs with
  | [] => .next s
  | x :: rest => takeInput x { s with inputs := rest }

/-- `s` with the command of a table word as the host's next command, so that the very next step runs
it (log entry 1). -/
def State.withFetchWord (s : State) (nbits w : Nat) : State :=
  s.withInput (.command (tableTransaction nbits w))

end Sys2Proof.Machine
end

