-- ==== Sys2Proof/Machine/Assembler.lean ====
section
/-! DEFINITION. The assembler syntax (30_encoding.md R89) and the pseudo-instructions (R90): a source
line, the commands it stands for, and its reading from text. The block never sees a line: the host
issues the transactions. -/

namespace Sys2Proof.Machine

/-- One source line, its numbers not yet checked against their ranges (30_encoding.md R89, R90). -/
inductive AsmLine where
  | nop
  | crcInit
  | crcApp (b : Nat)
  | crcVal
  | crcAcc
  | crcLd (v : Nat)
  | winOpenR (start len : Nat)
  | winOpenRw (start len : Nat)
  | winClose
  | winSeek (c : Nat)
  | winTell
  | winAvail
  | winRd (w : Nat)
  | winWr (w v : Nat)
  | winRdb (k : Nat)
  | winWrb (k : Nat) (bytes : List Nat)
  | winInfo
  | blkFstat
  /-- `crc.bytes [b0, ..., bm]` (R90). -/
  | crcBytes (bytes : List Nat)
  /-- `crc.str "text"`, the text as its character codes (R90). -/
  | crcStr (codes : List Nat)
  /-- `win.rewind` (R90). -/
  | winRewind
deriving DecidableEq, Repr

/-- The width of a number of bytes (30_encoding.md R86). -/
def widthOfBytes (w : Nat) : Option Width :=
  match w with
  | 1 => some .w1
  | 2 => some .w2
  | 4 => some .w4
  | 8 => some .w8
  | _ => none

/-- A number, if it is below `2^width`; an operand out of its range is an assembly error (R89). -/
def operand (width v : Nat) : Option (BitVec width) :=
  if v < 2 ^ width then some (BitVec.ofNat width v) else none

/-- The bytes of a list of numbers below `limit`. -/
def byteOperands (limit : Nat) (vs : List Nat) : Option (List Byte) :=
  if vs.all fun v => decide (v < limit) then some (vs.map (BitVec.ofNat 8)) else none

/-- The commands of a source line, in order (30_encoding.md R89, R90); none for an operand out of its
range. The text of `crc.str` is ASCII. -/
def AsmLine.commands (line : AsmLine) : Option (List Instr) :=
  match line with
  | .nop => some [.nop]
  | .crcInit => some [.crcInit]
  | .crcApp b => do
    let b ← operand 8 b
    return [.crcApp b]
  | .crcVal => some [.crcVal]
  | .crcAcc => some [.crcAcc]
  | .crcLd v => do
    let v ← operand 32 v
    return [.crcLd v]
  | .winOpenR start len => do
    let start ← operand 16 start
    let len ← operand 16 len
    return [.winOpenR start len]
  | .winOpenRw start len => do
    let start ← operand 16 start
    let len ← operand 16 len
    return [.winOpenRw start len]
  | .winClose => some [.winClose]
  | .winSeek c => do
    let c ← operand 16 c
    return [.winSeek c]
  | .winTell => some [.winTell]
  | .winAvail => some [.winAvail]
  | .winRd w => do
    let w ← widthOfBytes w
    return [.winRd w]
  | .winWr w v => do
    let w ← widthOfBytes w
    if v < 2 ^ (8 * w.bytes) then return [.winWr w (BitVec.ofNat 64 v)] else none
  | .winRdb k => do
    let k ← operand 16 k
    return [.winRdb k]
  | .winWrb k bytes => do
    let bytes ← byteOperands 256 bytes
    if bytes.length = k ∧ k ≤ maxBytes then return [.winWrb bytes] else none
  | .winInfo => some [.winInfo]
  | .blkFstat => some [.blkFstat]
  | .crcBytes bytes => do
    let bytes ← byteOperands 256 bytes
    return bytes.map .crcApp
  | .crcStr codes => do
    let bytes ← byteOperands 128 codes
    return bytes.map .crcApp
  | .winRewind => some [.winSeek 0]

/-- The transactions a source line assembles to (30_encoding.md R89). -/
def assemble (line : AsmLine) : Option (List Transaction) :=
  line.commands.map fun is => is.map encode

/-! ## Lines as text (R89; the conventions R89 leaves open are log entry 20) -/

/-- A token of a source line. -/
inductive Token where
  | word (cs : List Char)
  | comma
  | listOpen
  | listClose
  | text (cs : List Char)
deriving DecidableEq, Repr

/-- Where the lexer stands: outside a text with the letters of an unfinished word, or inside a text,
each latest letter first. -/
inductive LexMode where
  | outside (word : List Char)
  | inside (text : List Char)
deriving DecidableEq, Repr

/-- Ends the unfinished word before the tokens that follow. -/
def endWord (word : List Char) (rest : List Token) : List Token :=
  if word.isEmpty then rest else .word word.reverse :: rest

/-- The double quote, which opens and closes the text of `crc.str`. -/
def quoteMark : Char := Char.ofNat 34

/-- The tokens of a line; a `;` starts a comment (R89). None for a text that is not closed. -/
def lex (mode : LexMode) (line : List Char) : Option (List Token) :=
  match mode, line with
  | .outside word, [] => some (endWord word [])
  | .inside _, [] => none
  | .inside text, c :: rest =>
    if c = quoteMark then (lex (.outside []) rest).map fun ts => .text text.reverse :: ts
    else lex (.inside (c :: text)) rest
  | .outside word, c :: rest =>
    if c = ';' then some (endWord word [])
    else if c = ' ' ∨ c = '\t' ∨ c = '\r' then (lex (.outside []) rest).map (endWord word)
    else if c = ',' then (lex (.outside []) rest).map fun ts => endWord word (.comma :: ts)
    else if c = '[' then (lex (.outside []) rest).map fun ts => endWord word (.listOpen :: ts)
    else if c = ']' then (lex (.outside []) rest).map fun ts => endWord word (.listClose :: ts)
    else if c = quoteMark then (lex (.inside []) rest).map (endWord word)
    else lex (.outside (c :: word)) rest

/-- The value of a digit in a base. -/
def digit (base : Nat) (c : Char) : Option Nat :=
  let v :=
    if '0' ≤ c ∧ c ≤ '9' then c.toNat - 48
    else if 'a' ≤ c ∧ c ≤ 'f' then c.toNat - 87
    else if 'A' ≤ c ∧ c ≤ 'F' then c.toNat - 55
    else base
  if v < base then some v else none

/-- The value of digits in a base, after the digits read so far. -/
def digits (base acc : Nat) (cs : List Char) : Option Nat :=
  match cs with
  | [] => some acc
  | c :: rest => do
    let v ← digit base c
    digits base (acc * base + v) rest

/-- A number: decimal, or hexadecimal after `0x` (R89). -/
def number (cs : List Char) : Option Nat :=
  match cs with
  | [] => none
  | '0' :: 'x' :: c :: rest => digits 16 0 (c :: rest)
  | cs => digits 10 0 cs

/-- The numbers of a byte list after its `[`, up to the `]` that ends the line (R89). -/
def byteList (ts : List Token) : Option (List Nat) :=
  match ts with
  | [.listClose] => some []
  | [.word x, .listClose] => do
    let v ← number x
    return [v]
  | .word x :: .comma :: .word y :: rest => do
    let v ← number x
    let vs ← byteList (.word y :: rest)
    return v :: vs
  | _ => none

/-- The lines that are a mnemonic alone. -/
def plainLines : List (List Char × AsmLine) :=
  [("nop".toList, .nop), ("crc.init".toList, .crcInit), ("crc.val".toList, .crcVal),
    ("crc.acc".toList, .crcAcc), ("win.close".toList, .winClose), ("win.tell".toList, .winTell)] ++
  [("win.avail".toList, .winAvail), ("win.info".toList, .winInfo), ("blk.fstat".toList, .blkFstat),
    ("win.rewind".toList, .winRewind)] ++
  [("win.rd.b".toList, .winRd 1), ("win.rd.h".toList, .winRd 2), ("win.rd.w".toList, .winRd 4),
    ("win.rd.d".toList, .winRd 8)]

/-- The lines of a mnemonic and one number. -/
def oneNumberLines (v : Nat) : List (List Char × AsmLine) :=
  [("crc.app".toList, .crcApp v), ("crc.ld".toList, .crcLd v), ("win.seek".toList, .winSeek v),
    ("win.rd".toList, .winRd v), ("win.rdb".toList, .winRdb v)] ++
  [("win.wr.b".toList, .winWr 1 v), ("win.wr.h".toList, .winWr 2 v),
    ("win.wr.w".toList, .winWr 4 v), ("win.wr.d".toList, .winWr 8 v)]

/-- The lines of a mnemonic and two numbers. -/
def twoNumberLines (u v : Nat) : List (List Char × AsmLine) :=
  [("win.open.r".toList, .winOpenR u v), ("win.open.rw".toList, .winOpenRw u v),
    ("win.wr".toList, .winWr u v)]

/-- The line of its tokens, by its shape (R89, R90). -/
def lineOf (ts : List Token) : Option AsmLine :=
  match ts with
  | [.word m] => plainLines.lookup m
  | [.word m, .word x] => do
    let v ← number x
    (oneNumberLines v).lookup m
  | [.word m, .word x, .comma, .word y] => do
    let u ← number x
    let v ← number y
    (twoNumberLines u v).lookup m
  | .word m :: .listOpen :: rest => do
    let vs ← byteList rest
    if m = "crc.bytes".toList then return .crcBytes vs else none
  | .word m :: .word x :: .comma :: .listOpen :: rest => do
    let k ← number x
    let vs ← byteList rest
    if m = "win.wrb".toList then return .winWrb k vs else none
  | [.word m, .text t] => if m = "crc.str".toList then some (.crcStr (t.map Char.toNat)) else none
  | _ => none

/-- The transactions of a line of text: none for an error, no transaction for a line that holds only
space or a comment (R89). -/
def assembleText (line : List Char) : Option (List Transaction) := do
  let ts ← lex (.outside []) line
  if ts.isEmpty then return [] else (lineOf ts).bind assemble

end Sys2Proof.Machine
end

