-- ==== Sys2Proof/Safety.lean ====
section
/-! DEFINITION. The invariant of the block, from the legal values of 10_state.md (R24, R25, R29), the
status codes of 60_exceptions.md R171, the device of 20_memory.md R50 and the response of
30_encoding.md R80; and the terms the statements use. -/

namespace Sys2Proof

/-- The commands that need an open window (41_window.md R120). -/
def Instr.needsWindow (i : Instr) : Bool :=
  match i with
  | .winSeek _ | .winTell | .winAvail | .winRd _ | .winWr _ _ | .winRdb _ | .winWrb _ => true
  | .nop | .crcInit | .crcApp _ | .crcVal | .crcAcc | .crcLd _ | .winOpenR _ _ | .winOpenRw _ _
  | .winClose | .winInfo | .blkFstat => false

/-- The commands of the CRC unit (40_crc.md). -/
def Instr.isCrc (i : Instr) : Bool :=
  match i with
  | .crcInit | .crcApp _ | .crcVal | .crcAcc | .crcLd _ => true
  | .nop | .winOpenR _ _ | .winOpenRw _ _ | .winClose | .winSeek _ | .winTell | .winAvail
  | .winRd _ | .winWr _ _ | .winRdb _ | .winWrb _ | .winInfo | .blkFstat => false

/-- The commands of the window unit (41_window.md). -/
def Instr.isWindow (i : Instr) : Bool :=
  match i with
  | .winOpenR _ _ | .winOpenRw _ _ | .winClose | .winSeek _ | .winTell | .winAvail | .winRd _
  | .winWr _ _ | .winRdb _ | .winWrb _ | .winInfo => true
  | .nop | .crcInit | .crcApp _ | .crcVal | .crcAcc | .crcLd _ | .blkFstat => false

/-- The commands that return data in `RDATA` (10_state.md R27). -/
def Instr.returnsData (i : Instr) : Bool :=
  match i with
  | .crcVal | .crcAcc | .winTell | .winAvail | .winRd _ | .winInfo | .blkFstat => true
  | .nop | .crcInit | .crcApp _ | .crcLd _ | .winOpenR _ _ | .winOpenRw _ _ | .winClose
  | .winSeek _ | .winWr _ _ | .winRdb _ | .winWrb _ => false

/-- The byte count of a window transfer; 0 for every other command (41_window.md R127–R130). -/
def Instr.count (i : Instr) : Nat :=
  match i with
  | .winRd w => w.bytes
  | .winWr w _ => w.bytes
  | .winRdb k => k.toNat
  | .winWrb bytes => bytes.length
  | .nop | .crcInit | .crcApp _ | .crcVal | .crcAcc | .crcLd _ | .winOpenR _ _ | .winOpenRw _ _
  | .winClose | .winSeek _ | .winTell | .winAvail | .winInfo | .blkFstat => 0

/-- Is the command a window transfer (41_window.md R132)? -/
def Instr.isTransfer (i : Instr) : Bool :=
  match i with
  | .winRd _ | .winWr _ _ | .winRdb _ | .winWrb _ => true
  | .nop | .crcInit | .crcApp _ | .crcVal | .crcAcc | .crcLd _ | .winOpenR _ _ | .winOpenRw _ _
  | .winClose | .winSeek _ | .winTell | .winAvail | .winInfo | .blkFstat => false

/-- Is the command a window write (60_exceptions.md R178, step 3b)? -/
def Instr.isWrite (i : Instr) : Bool :=
  match i with
  | .winWr _ _ | .winWrb _ => true
  | .nop | .crcInit | .crcApp _ | .crcVal | .crcAcc | .crcLd _ | .winOpenR _ _ | .winOpenRw _ _
  | .winClose | .winSeek _ | .winTell | .winAvail | .winRd _ | .winRdb _ | .winInfo
  | .blkFstat => false

end Sys2Proof

namespace Sys2Proof.Machine

/-- The legal values of the window registers: all 0 with no window open (10_state.md R24), inside the
address range with the cursor inside the window otherwise (R25). -/
abbrev State.windowWf (s : State) : Prop :=
  (s.valid = false → s.writable = false ∧ s.start = 0 ∧ s.length = 0 ∧ s.cursor = 0) ∧
  (s.valid = true → s.start.toNat ≤ 65534 ∧ s.start.toNat + s.length.toNat ≤ 65534 ∧
    s.cursor.toNat ≤ s.length.toNat)

/-- The legal values of the fault registers: no record without a fault, and the cause and the command
of a fault as 60_exceptions.md R173 pairs them (10_state.md R29). -/
abbrev State.faultWf (s : State) : Prop :=
  (s.fault = false → s.faultCause = 0 ∧ s.faultCmd = 0) ∧
  (s.fault = true →
    (s.faultCause = 1 ∧ (opField s.faultCmd = 0x10 ∨ opField s.faultCmd = 0x11)) ∨
    (s.faultCause = 2 ∧ (opField s.faultCmd = 0x16 ∨ opField s.faultCmd = 0x17 ∨
      opField s.faultCmd = 0x18 ∨ opField s.faultCmd = 0x19)))

/-- What every reachable state of the block satisfies. -/
structure State.Inv (s : State) : Prop where
  /-- The platform's duty on `DEV_N` (70_reset_and_hazards.md R204). -/
  params : s.cfg.wf
  /-- The device's cells are canonical. -/
  canonical : s.device.wf = true
  /-- The device has the addresses `0 .. DEV_N-1` and no other (20_memory.md R50). -/
  addresses : s.device.within s.cfg.devN = true
  window : s.windowWf
  faults : s.faultWf
  /-- `STATUS` holds one of the codes 0–6 (60_exceptions.md R171). -/
  codes : s.status.toNat ≤ 6
  /-- The response carries the two registers (30_encoding.md R80). -/
  answer : ∀ r, s.response = some r → r.status = s.status ∧ r.rdata = s.rdata

/-- The address of a device access. -/
def Access.addr (x : Access) : Nat :=
  match x with
  | .read a => a
  | .write a _ => a

/-- Does the outside world reset the block with this input (70_reset_and_hazards.md R201)? -/
def Input.isReset (x : Input) : Bool :=
  match x with
  | .reset | .resetDuring _ _ | .powerLoss | .powerLossDuring _ _ => true
  | .command _ | .hostWrite _ _ => false

/-- The inputs with which the host issues these commands, in order. -/
def issue (commands : List Instr) : List Input := commands.map fun i => .command (encode i)

/-- The state after a command that ends with a status code and changes nothing else: `STATUS`, the
response with the old `RDATA` and no bytes, and no device access (00_scope.md R10; 10_state.md R28). -/
def State.answered (s : State) (code : BitVec 4) : State :=
  { s with status := code, response := some ⟨code, s.rdata, []⟩, accesses := [] }

/-- The state after a command that raises a fault and changes nothing else (60_exceptions.md R174). -/
def State.faultedBy (s : State) (cause : BitVec 8) (cmd : Word) : State :=
  ({ s with fault := true, faultCause := cause, faultCmd := cmd } : State).answered 6

/-- How the transfer `i` of `count` bytes, with the word `cmd`, stops short of its effect in an
unfaulted state, in the order of 60_exceptions.md R178: NO_WINDOW, then READ_ONLY for a write, then
RESOURCE_EXHAUSTED, then `Fault(DEV_RANGE)` for one byte or more. -/
def TransferStops (i : Instr) (cmd : Word) (count : Nat) (s : State) : Prop :=
  (s.valid = false → exec i s = .next (s.answered 4)) ∧
  (s.valid = true → i.isWrite = true → s.writable = false → exec i s = .next (s.answered 3)) ∧
  (s.valid = true → (i.isWrite = true → s.writable = true) →
    s.length.toNat < s.cursor.toNat + count → exec i s = .next (s.answered 2)) ∧
  (s.valid = true → (i.isWrite = true → s.writable = true) →
    s.cursor.toNat + count ≤ s.length.toNat → 1 ≤ count →
    s.cfg.devN ≤ s.start.toNat + s.cursor.toNat + count - 1 →
    exec i s = .next (s.faultedBy 2 cmd))

/-- When the transfer of `count` bytes has its effect (60_exceptions.md R178): an open window, enough
bytes left in it, and, for one byte or more, every byte on the device. -/
abbrev TransferFits (count : Nat) (s : State) : Prop :=
  s.valid = true ∧ s.cursor.toNat + count ≤ s.length.toNat ∧
  (1 ≤ count → s.start.toNat + s.cursor.toNat + count - 1 < s.cfg.devN)

/-- `k` steps, ending at the first fault or refusal. -/
def runSteps (k : Nat) (s : State) : Host.Outcome State Fault Refusal :=
  match k with
  | 0 => .next s
  | k + 1 =>
    match step s with
    | .next t => runSteps k t
    | .fault r => .fault r
    | .refused r => .refused r

/-- A step's next state, seen through a function. -/
def mapNext (f : State → State) (o : Host.Outcome State Fault Refusal) :
    Host.Outcome State Fault Refusal :=
  match o with
  | .next t => .next (f t)
  | .fault r => .fault r
  | .refused r => .refused r

end Sys2Proof.Machine
end

