-- ==== Sys2Proof/Certificates/Slice0/Obligations.lean ====
section
/-! DEFINITION. The statements about the model, from the numbered rules of spec/. -/

open Sys2Proof Sys2Proof.Machine

/-! ## Each command: its encoding, its effect with its whole frame, and where it stops short -/

/-- 42_system.md R160. -/
def Obligations.NopChangesOnlyStatus : Prop :=
  ∀ (s : State) (d : Data),
    decode ⟨0x00000000, d, []⟩ = .ok .nop ∧
    exec .nop s = .next (s.answered (if s.fault then 6 else 0))

/-- 40_crc.md R105. -/
def Obligations.CrcInitSetsAccumulator : Prop :=
  ∀ (s : State) (d : Data),
    decode ⟨0x00000001, d, []⟩ = .ok .crcInit ∧
    (s.fault = false →
      exec .crcInit s = .next (({ s with acc := 0xFFFFFFFF } : State).answered 0)) ∧
    (s.fault = true → exec .crcInit s = .next (s.answered 6))

/-- 40_crc.md R106: the byte step is R101's, the low nibble first. -/
def Obligations.CrcAppendFoldsOneByte : Prop :=
  ∀ (b : Byte) (s : State) (d : Data),
    decode ⟨(b.setWidth 32 <<< 16) ||| 0x02, d, []⟩ = .ok (.crcApp b) ∧
    (s.fault = false →
      exec (.crcApp b) s = .next
        (({ s with
            acc := nib (nib s.acc (b.extractLsb' 0 4)) (b.extractLsb' 4 4) } : State).answered 0)) ∧
    (s.fault = true → exec (.crcApp b) s = .next (s.answered 6))

/-- 40_crc.md R107 with 10_state.md R23, for both values of `VALUE_INVERT`. -/
def Obligations.CrcValueReadsTheView : Prop :=
  ∀ (s : State) (d : Data),
    decode ⟨0x00000003, d, []⟩ = .ok .crcVal ∧
    (s.fault = false → s.cfg.valueInvert = true →
      exec .crcVal s = .next (({ s with rdata := (~~~s.acc).setWidth 64 } : State).answered 0)) ∧
    (s.fault = false → s.cfg.valueInvert = false →
      exec .crcVal s = .next (({ s with rdata := s.acc.setWidth 64 } : State).answered 0)) ∧
    (s.fault = true → exec .crcVal s = .next (s.answered 6))

/-- 40_crc.md R108. -/
def Obligations.CrcAccReadsTheAccumulator : Prop :=
  ∀ (s : State) (d : Data),
    decode ⟨0x00000004, d, []⟩ = .ok .crcAcc ∧
    (s.fault = false →
      exec .crcAcc s = .next (({ s with rdata := s.acc.setWidth 64 } : State).answered 0)) ∧
    (s.fault = true → exec .crcAcc s = .next (s.answered 6))

/-- 40_crc.md R109: the upper half of `WDATA` is ignored. -/
def Obligations.CrcLoadWritesTheAccumulator : Prop :=
  ∀ (s : State) (d : Data) (v : Word),
    decode ⟨0x00000005, d, []⟩ = .ok (.crcLd (d.extractLsb' 0 32)) ∧
    (s.fault = false → exec (.crcLd v) s = .next (({ s with acc := v } : State).answered 0)) ∧
    (s.fault = true → exec (.crcLd v) s = .next (s.answered 6))

/-- 41_window.md R121: the effect inside the bound, `Fault(WIN_BOUNDS)` outside it. -/
def Obligations.OpenReadOnlySetsTheWindow : Prop :=
  ∀ (a len : Half) (s : State) (d : Data),
    decode ⟨(a.setWidth 32 <<< 16) ||| 0x10, d, []⟩ = .ok (.winOpenR a (d.extractLsb' 0 16)) ∧
    (s.fault = false → a.toNat ≤ 65534 → a.toNat + len.toNat ≤ 65534 →
      exec (.winOpenR a len) s = .next (({ s with
        valid := true, writable := false, start := a, length := len,
        cursor := 0 } : State).answered 0)) ∧
    (s.fault = false → ¬(a.toNat ≤ 65534 ∧ a.toNat + len.toNat ≤ 65534) →
      exec (.winOpenR a len) s = .next (s.faultedBy 1 ((a.setWidth 32 <<< 16) ||| 0x10))) ∧
    (s.fault = true → exec (.winOpenR a len) s = .next (s.answered 6))

/-- 41_window.md R122: the effect inside the bound, `Fault(WIN_BOUNDS)` outside it. -/
def Obligations.OpenReadWriteSetsTheWindow : Prop :=
  ∀ (a len : Half) (s : State) (d : Data),
    decode ⟨(a.setWidth 32 <<< 16) ||| 0x11, d, []⟩ = .ok (.winOpenRw a (d.extractLsb' 0 16)) ∧
    (s.fault = false → a.toNat ≤ 65534 → a.toNat + len.toNat ≤ 65534 →
      exec (.winOpenRw a len) s = .next (({ s with
        valid := true, writable := true, start := a, length := len,
        cursor := 0 } : State).answered 0)) ∧
    (s.fault = false → ¬(a.toNat ≤ 65534 ∧ a.toNat + len.toNat ≤ 65534) →
      exec (.winOpenRw a len) s = .next (s.faultedBy 1 ((a.setWidth 32 <<< 16) ||| 0x11))) ∧
    (s.fault = true → exec (.winOpenRw a len) s = .next (s.answered 6))

/-- 41_window.md R123. -/
def Obligations.CloseClearsTheWindow : Prop :=
  ∀ (s : State) (d : Data),
    decode ⟨0x00000012, d, []⟩ = .ok .winClose ∧
    (s.fault = false →
      exec .winClose s = .next (({ s with
        valid := false, writable := false, start := 0, length := 0,
        cursor := 0 } : State).answered 0)) ∧
    (s.fault = true → exec .winClose s = .next (s.answered 6))

/-- 41_window.md R124. -/
def Obligations.SeekMovesTheCursorInsideTheWindow : Prop :=
  ∀ (c : Half) (s : State) (d : Data),
    decode ⟨(c.setWidth 32 <<< 16) ||| 0x13, d, []⟩ = .ok (.winSeek c) ∧
    (s.fault = false → s.valid = true → c.toNat ≤ s.length.toNat →
      exec (.winSeek c) s = .next (({ s with cursor := c } : State).answered 0)) ∧
    (s.fault = false → s.valid = true → s.length.toNat < c.toNat →
      exec (.winSeek c) s = .next (s.answered 1)) ∧
    (s.fault = false → s.valid = false → exec (.winSeek c) s = .next (s.answered 4)) ∧
    (s.fault = true → exec (.winSeek c) s = .next (s.answered 6))

/-- 41_window.md R125. -/
def Obligations.TellReadsTheCursor : Prop :=
  ∀ (s : State) (d : Data),
    decode ⟨0x00000014, d, []⟩ = .ok .winTell ∧
    (s.fault = false → s.valid = true →
      exec .winTell s = .next (({ s with rdata := s.cursor.setWidth 64 } : State).answered 0)) ∧
    (s.fault = false → s.valid = false → exec .winTell s = .next (s.answered 4)) ∧
    (s.fault = true → exec .winTell s = .next (s.answered 6))

/-- 41_window.md R126 with 10_state.md R26; the premise on the cursor is part of `State.windowWf`, which
holds of every reachable state (10_state.md R25). -/
def Obligations.AvailReadsTheBytesLeft : Prop :=
  ∀ (s : State) (d : Data),
    decode ⟨0x00000015, d, []⟩ = .ok .winAvail ∧
    (s.fault = false → s.valid = true → s.cursor.toNat ≤ s.length.toNat →
      exec .winAvail s = .next
        (({ s with rdata := BitVec.ofNat 64 (s.length.toNat - s.cursor.toNat) } : State).answered
          0)) ∧
    (s.fault = false → s.valid = false → exec .winAvail s = .next (s.answered 4)) ∧
    (s.fault = true → exec .winAvail s = .next (s.answered 6))

/-- 41_window.md R127 with 20_memory.md R55: the value is the device's bytes, the lowest address least
significant, zero-extended; they are read one by one in ascending order; nothing else changes. -/
def Obligations.TypedReadReturnsLittleEndianBytes : Prop :=
  ∀ (w : Width) (s : State) (d : Data),
    decode ⟨(w.field.setWidth 32 <<< 8) ||| 0x16, d, []⟩ = .ok (.winRd w) ∧
    (s.fault = false → TransferFits w.bytes s →
      ∃ t, exec (.winRd w) s = .next t ∧
        (∀ k < w.bytes, t.rdata.extractLsb' (8 * k) 8 =
          s.byteAt (s.start.toNat + s.cursor.toNat + k)) ∧
        t.rdata.toNat < 2 ^ (8 * w.bytes) ∧
        t = { ({ s with
            rdata := t.rdata
            cursor := BitVec.ofNat 16 (s.cursor.toNat + w.bytes) } : State).answered 0 with
          accesses := (List.range w.bytes).map fun k =>
            .read (s.start.toNat + s.cursor.toNat + k) }) ∧
    (s.fault = false →
      TransferStops (.winRd w) ((w.field.setWidth 32 <<< 8) ||| 0x16) w.bytes s) ∧
    (s.fault = true → exec (.winRd w) s = .next (s.answered 6))

/-- 41_window.md R128 with 20_memory.md R56: the low bytes of the value, the least significant at the
lowest address, written one by one in ascending order; every other byte and register as before. The
premise on the device is part of `State.Inv`. -/
def Obligations.TypedWriteStoresLittleEndianBytes : Prop :=
  ∀ (w : Width) (v : Data) (s : State) (d : Data),
    decode ⟨(w.field.setWidth 32 <<< 8) ||| 0x17, d, []⟩ = .ok (.winWr w (w.truncate d)) ∧
    (s.device.wf = true → s.fault = false → s.writable = true → TransferFits w.bytes s →
      ∃ t, exec (.winWr w v) s = .next t ∧
        (∀ k < w.bytes, t.byteAt (s.start.toNat + s.cursor.toNat + k) =
          v.extractLsb' (8 * k) 8) ∧
        (∀ a, ¬(s.start.toNat + s.cursor.toNat ≤ a ∧
            a < s.start.toNat + s.cursor.toNat + w.bytes) → t.byteAt a = s.byteAt a) ∧
        t = { ({ s with
            device := t.device
            cursor := BitVec.ofNat 16 (s.cursor.toNat + w.bytes) } : State).answered 0 with
          accesses := (List.range w.bytes).map fun k =>
            .write (s.start.toNat + s.cursor.toNat + k) (v.extractLsb' (8 * k) 8) }) ∧
    (s.fault = false →
      TransferStops (.winWr w v) ((w.field.setWidth 32 <<< 8) ||| 0x17) w.bytes s) ∧
    (s.fault = true → exec (.winWr w v) s = .next (s.answered 6))

/-- 41_window.md R129. With `k = 0` the premise asks nothing of the device, and no byte is read. -/
def Obligations.ArrayReadReturnsTheBytes : Prop :=
  ∀ (k : Half) (s : State) (d : Data),
    decode ⟨(k.setWidth 32 <<< 16) ||| 0x18, d, []⟩ = .ok (.winRdb k) ∧
    (s.fault = false → TransferFits k.toNat s →
      exec (.winRdb k) s = .next
        { s with
          status := 0
          cursor := BitVec.ofNat 16 (s.cursor.toNat + k.toNat)
          response := some ⟨0, s.rdata, (List.range k.toNat).map fun j =>
            s.byteAt (s.start.toNat + s.cursor.toNat + j)⟩
          accesses := (List.range k.toNat).map fun j =>
            .read (s.start.toNat + s.cursor.toNat + j) }) ∧
    (s.fault = false →
      TransferStops (.winRdb k) ((k.setWidth 32 <<< 16) ||| 0x18) k.toNat s) ∧
    (s.fault = true → exec (.winRdb k) s = .next (s.answered 6))

/-- 41_window.md R130, for a byte list of any length the port can carry. The premise on the device is
part of `State.Inv`. -/
def Obligations.ArrayWriteStoresTheBytes : Prop :=
  ∀ (bytes : List Byte) (s : State) (d : Data), bytes.length ≤ 65535 →
    decode ⟨(BitVec.ofNat 32 bytes.length <<< 16) ||| 0x19, d, bytes⟩ = .ok (.winWrb bytes) ∧
    (s.device.wf = true → s.fault = false → s.writable = true → TransferFits bytes.length s →
      ∃ t, exec (.winWrb bytes) s = .next t ∧
        (∀ (k : Nat) (h : k < bytes.length),
          t.byteAt (s.start.toNat + s.cursor.toNat + k) = bytes[k]) ∧
        (∀ a, ¬(s.start.toNat + s.cursor.toNat ≤ a ∧
            a < s.start.toNat + s.cursor.toNat + bytes.length) → t.byteAt a = s.byteAt a) ∧
        t = { ({ s with
            device := t.device
            cursor := BitVec.ofNat 16 (s.cursor.toNat + bytes.length) } : State).answered 0 with
          accesses := bytes.mapIdx fun k b => .write (s.start.toNat + s.cursor.toNat + k) b }) ∧
    (s.fault = false →
      TransferStops (.winWrb bytes) ((BitVec.ofNat 32 bytes.length <<< 16) ||| 0x19)
        bytes.length s) ∧
    (s.fault = true → exec (.winWrb bytes) s = .next (s.answered 6))

/-- 41_window.md R131: the packing of the five window registers, with or without a window. -/
def Obligations.InfoPacksTheWindowRegisters : Prop :=
  ∀ (s : State) (d : Data),
    decode ⟨0x0000001A, d, []⟩ = .ok .winInfo ∧
    (s.fault = false →
      ∃ t, exec .winInfo s = .next t ∧
        t.rdata.extractLsb' 0 16 = s.start ∧ t.rdata.extractLsb' 16 16 = s.length ∧
        t.rdata.extractLsb' 32 16 = s.cursor ∧ t.rdata.getLsbD 48 = s.valid ∧
        t.rdata.getLsbD 49 = s.writable ∧ t.rdata.extractLsb' 50 14 = 0 ∧
        t = ({ s with rdata := t.rdata } : State).answered 0) ∧
    (s.fault = true → exec .winInfo s = .next (s.answered 6))

/-- 42_system.md R161: the packing of the three fault registers, while faulted or not; the fault
stays. -/
def Obligations.FstatPacksTheFaultRegisters : Prop :=
  ∀ (s : State) (d : Data),
    decode ⟨0x00000030, d, []⟩ = .ok .blkFstat ∧
    ∃ t, exec .blkFstat s = .next t ∧
      t.rdata.extractLsb' 0 32 = s.faultCmd ∧ t.rdata.extractLsb' 32 8 = s.faultCause ∧
      t.rdata.getLsbD 40 = s.fault ∧ t.rdata.extractLsb' 41 23 = 0 ∧
      t = ({ s with rdata := t.rdata } : State).answered 0

/-! ## The CRC function -/

/-- 10_state.md R22: every table entry is four bit steps of its index. -/
def Obligations.TableEntriesAreFourBitSteps : Prop :=
  ∀ i : BitVec 4, tableEntry i = crcBit^[4] (i.setWidth 32)

/-- 40_crc.md R102: the two nibble steps of a byte are the eight bit steps of the bitwise definition, for
every accumulator. -/
def Obligations.AppendByteIsBitwise : Prop :=
  ∀ (c : Word) (b : Byte), appendByte c b = crcBit^[8] (c ^^^ b.setWidth 32)

/-- 40_crc.md R104: the check values of "123456789" and of no byte, for both values of the parameter. -/
def Obligations.CrcCheckValues : Prop :=
  crcFold 0xFFFFFFFF [] = 0xFFFFFFFF ∧
  crcView true (crcFold 0xFFFFFFFF []) = 0x00000000 ∧
  crcFold 0xFFFFFFFF [0x31, 0x32, 0x33, 0x34, 0x35, 0x36, 0x37, 0x38, 0x39] = 0x340BC6D9 ∧
  crcView true (crcFold 0xFFFFFFFF [0x31, 0x32, 0x33, 0x34, 0x35, 0x36, 0x37, 0x38, 0x39]) =
    0xCBF43926 ∧
  ∀ c : Word, crcView false c = c

/-- 40_crc.md R103 at the command port, the commands given as the list of inputs of log entry 1: from any unfaulted state, `crc.init`, one `crc.app` a byte and
`crc.val` return the CRC of the byte sequence, whatever ran before and whatever the window and the
device are; both stay as they were. -/
def Obligations.PortComputesTheCrcOfAnySequence : Prop :=
  ∀ (bytes : List Byte) (s : State) (rest : List Input),
    s.fault = false →
    s.inputs = issue (.crcInit :: bytes.map .crcApp ++ [.crcVal]) ++ rest →
    ∃ t, runSteps (bytes.length + 2) s = .next t ∧
      t.acc = crcFold 0xFFFFFFFF bytes ∧
      t.rdata = (if s.cfg.valueInvert then ~~~(crcFold 0xFFFFFFFF bytes)
        else crcFold 0xFFFFFFFF bytes).setWidth 64 ∧
      t = { ({ s with acc := t.acc, rdata := t.rdata, inputs := rest } : State).answered 0 with
        accesses := [] }

/-- 40_crc.md R111: the continuation law; and, at the command port, loading the raw value of a stored CRC
word of `p` and appending `q` returns the CRC word of `p ++ q`, for both values of `VALUE_INVERT`. -/
def Obligations.StoredCrcContinuesOverMoreBytes : Prop :=
  ∀ (p q : List Byte) (stored raw : Word) (s : State) (rest : List Input),
    crcFold (crcFold 0xFFFFFFFF p) q = crcFold 0xFFFFFFFF (p ++ q) ∧
    (s.fault = false →
      stored = crcView s.cfg.valueInvert (crcFold 0xFFFFFFFF p) →
      raw = (if s.cfg.valueInvert then ~~~stored else stored) →
      s.inputs = issue (.crcLd raw :: q.map .crcApp ++ [.crcVal]) ++ rest →
      ∃ t, runSteps (q.length + 2) s = .next t ∧
        t.status = 0 ∧ t.inputs = rest ∧
        t.rdata = (crcView s.cfg.valueInvert (crcFold 0xFFFFFFFF (p ++ q))).setWidth 64)

/-! ## Encoding -/

/-- 30_encoding.md R89, R82: decoding the transaction of a well-formed command gives the command, with
every operand. -/
def Obligations.DecodeOfEncodeIsTheCommand : Prop :=
  ∀ i : Instr, i.wellFormed = true → decode (encode i) = .ok i

/-- A defined transaction has a well-formed command, and carries the very word and byte list of its
encoding: every bit of a defined word is fixed or an operand (30_encoding.md R82–R84, R87), so the word a
fault records is the word the host sent (60_exceptions.md R174). -/
def Obligations.DefinedWordIsTheWordOfItsCommand : Prop :=
  ∀ (tx : Transaction) (i : Instr), decode tx = .ok i →
    i.wellFormed = true ∧ i.cmd = tx.cmd ∧ i.wbytes = tx.wbytes

/-- 30_encoding.md R83–R87: a transaction is defined exactly when a row of the opcode map selects its
word, a typed transfer has a legal width, and the byte list has the length the command needs. -/
def Obligations.DecodeFollowsTheOpcodeMap : Prop :=
  ∀ tx : Transaction,
    (∃ i, decode tx = .ok i) ↔
      (∃ r ∈ opcodeRows, tx.cmd &&& r.mask = r.matchBits) ∧
      (opField tx.cmd = 0x16 ∨ opField tx.cmd = 0x17 →
        nField tx.cmd = 1 ∨ nField tx.cmd = 2 ∨ nField tx.cmd = 4 ∨ nField tx.cmd = 8) ∧
      (if opField tx.cmd = 0x19 then tx.wbytes.length = (aField tx.cmd).toNat
        else tx.wbytes = [])

/-- 30_encoding.md R83: no two rows of the opcode map match the same word. -/
def Obligations.OpcodeRowsAreDisjoint : Prop :=
  opcodeRows.Pairwise fun r r' => ∀ cmd : Word, ¬(r.selects cmd = true ∧ r'.selects cmd = true)

/-- 30_encoding.md R91: each worked source line assembles to its transaction, and the transaction decodes to
the command of the line. -/
def Obligations.WorkedEncodingsDecode : Prop :=
  (assembleText "crc.app 0x61".toList = some [⟨0x00610002, 0, []⟩] ∧
    decode ⟨0x00610002, 0, []⟩ = .ok (.crcApp 0x61)) ∧
  (assembleText "crc.ld 0xCA21ADCC".toList = some [⟨0x00000005, 0x00000000CA21ADCC, []⟩] ∧
    decode ⟨0x00000005, 0x00000000CA21ADCC, []⟩ = .ok (.crcLd 0xCA21ADCC)) ∧
  (assembleText "win.open.r 10, 18".toList = some [⟨0x000A0010, 0x12, []⟩] ∧
    decode ⟨0x000A0010, 0x12, []⟩ = .ok (.winOpenR 10 18)) ∧
  (assembleText "win.open.rw 28, 36".toList = some [⟨0x001C0011, 0x24, []⟩] ∧
    decode ⟨0x001C0011, 0x24, []⟩ = .ok (.winOpenRw 28 36)) ∧
  (assembleText "win.seek 3".toList = some [⟨0x00030013, 0, []⟩] ∧
    decode ⟨0x00030013, 0, []⟩ = .ok (.winSeek 3)) ∧
  (assembleText "win.rd 2".toList = some [⟨0x00000216, 0, []⟩] ∧
    decode ⟨0x00000216, 0, []⟩ = .ok (.winRd .w2)) ∧
  (assembleText "win.wr 4, 0x11223344".toList = some [⟨0x00000417, 0x11223344, []⟩] ∧
    decode ⟨0x00000417, 0x11223344, []⟩ = .ok (.winWr .w4 0x11223344)) ∧
  (assembleText "win.rdb 8".toList = some [⟨0x00080018, 0, []⟩] ∧
    decode ⟨0x00080018, 0, []⟩ = .ok (.winRdb 8)) ∧
  (assembleText "win.wrb 3, [1, 1, 8]".toList = some [⟨0x00030019, 0, [1, 1, 8]⟩] ∧
    decode ⟨0x00030019, 0, [1, 1, 8]⟩ = .ok (.winWrb [1, 1, 8])) ∧
  (assembleText "win.open.r 65000, 1000".toList = some [⟨0xFDE80010, 0x3E8, []⟩] ∧
    decode ⟨0xFDE80010, 0x3E8, []⟩ = .ok (.winOpenR 65000 1000))

/-- 30_encoding.md R89: a source line never assembles to an undefined transaction. -/
def Obligations.AssembledLinesAreDefined : Prop :=
  ∀ (line : AsmLine) (txs : List Transaction), assemble line = some txs →
    ∀ tx ∈ txs, ∃ i, decode tx = .ok i ∧ encode i = tx

/-- 30_encoding.md R90: what each pseudo-instruction expands to, for every operand. -/
def Obligations.PseudoInstructionsExpand : Prop :=
  (∀ bytes : List Byte,
    assemble (.crcBytes (bytes.map BitVec.toNat)) = some (bytes.map fun b => encode (.crcApp b))) ∧
  (∀ codes : List Nat, (∀ c ∈ codes, c < 128) →
    assemble (.crcStr codes) =
      some (codes.map fun c => encode (.crcApp (BitVec.ofNat 8 c)))) ∧
  plainLines.lookup "win.rd.b".toList = some (.winRd 1) ∧
  plainLines.lookup "win.rd.h".toList = some (.winRd 2) ∧
  plainLines.lookup "win.rd.w".toList = some (.winRd 4) ∧
  plainLines.lookup "win.rd.d".toList = some (.winRd 8) ∧
  (∀ v : Nat, (oneNumberLines v).lookup "win.wr.b".toList = some (.winWr 1 v)) ∧
  (∀ v : Nat, (oneNumberLines v).lookup "win.wr.h".toList = some (.winWr 2 v)) ∧
  (∀ v : Nat, (oneNumberLines v).lookup "win.wr.w".toList = some (.winWr 4 v)) ∧
  (∀ v : Nat, (oneNumberLines v).lookup "win.wr.d".toList = some (.winWr 8 v)) ∧
  plainLines.lookup "win.rewind".toList = some .winRewind ∧
  assemble .winRewind = some [encode (.winSeek 0)]

/-! ## A step -/

/-- A transaction that decodes runs as its command, with the input consumed (10_state.md R31;
60_exceptions.md R178 step 3). -/
def Obligations.StepRunsTheDecodedCommand : Prop :=
  ∀ (s : State) (tx : Transaction) (rest : List Input) (i : Instr),
    s.inputs = .command tx :: rest → decode tx = .ok i →
    step s = exec i { s with inputs := rest }

/-- 42_system.md R162: an undefined transaction in an unfaulted block ends ILLEGAL and changes nothing
else. -/
def Obligations.UndefinedTransactionEndsIllegal : Prop :=
  ∀ (s : State) (tx : Transaction) (rest : List Input) (e : Undefined),
    s.inputs = .command tx :: rest → decode tx = .error e →
    (s.fault = false → step s = .next (({ s with inputs := rest } : State).answered 5)) ∧
    (s.fault = true → step s = .next (({ s with inputs := rest } : State).answered 6))

/-- 60_exceptions.md R175: while faulted, every transaction but exactly `0x00000030` with no bytes ends
FAULTED and changes nothing but `STATUS`; that one runs normally. -/
def Obligations.FaultedBlockRunsOnlyFstat : Prop :=
  ∀ (s : State) (tx : Transaction) (rest : List Input),
    s.inputs = .command tx :: rest → s.fault = true →
    (¬(tx.cmd = 0x00000030 ∧ tx.wbytes = []) →
      step s = .next (({ s with inputs := rest } : State).answered 6)) ∧
    (tx.cmd = 0x00000030 → tx.wbytes = [] →
      step s = exec .blkFstat { s with inputs := rest })

/-- With nothing asked of it the block is idle and holds its registers (60_exceptions.md R185); that a
step is then taken at all is the model's choice (log entry 7). -/
def Obligations.IdleBlockHoldsItsState : Prop :=
  ∀ s : State, s.inputs = [] → step s = .next s

/-- 10_state.md R33: the value of every register after a reset event between commands, and after a power
loss between commands with the power-up after it; the device and the parameters stay as they were
(70_reset_and_hazards.md R200, R201). Nothing is said of the model's own ports. -/
def Obligations.ResetSetsEveryRegister : Prop :=
  ∀ (s : State) (x : Input) (rest : List Input), (x = .reset ∨ x = .powerLoss) →
    s.inputs = x :: rest →
    ∃ t, step s = .next t ∧
      t = { acc := 0xFFFFFFFF, valid := false, writable := false, start := 0, length := 0, cursor := 0
            rdata := 0, status := 0, fault := false, faultCause := 0, faultCmd := 0
            device := s.device, cfg := s.cfg, response := t.response, accesses := t.accesses
            inputs := t.inputs }

/-- 70_reset_and_hazards.md R202: a power loss during a window write that fits, after any number of its
byte writes, leaves exactly that prefix written, in ascending address order, every other byte as it was,
and every register at its reset value, with no response. -/
def Obligations.PowerLossLeavesAPrefixOfTheWrite : Prop :=
  ∀ (s : State) (tx : Transaction) (i : Instr) (bytes : List Byte) (done : Nat) (rest : List Input),
    s.inputs = .powerLossDuring tx done :: rest → decode tx = .ok i →
    (i = .winWrb bytes ∨ ∃ w v, i = .winWr w v ∧ bytes = bytesOf w.bytes v) →
    s.device.wf = true → s.fault = false → s.writable = true → TransferFits bytes.length s →
    ∃ t, step s = .next t ∧
      (∀ (k : Nat) (h : k < bytes.length),
        t.byteAt (s.start.toNat + s.cursor.toNat + k) =
          if k < done then bytes[k] else s.byteAt (s.start.toNat + s.cursor.toNat + k)) ∧
      (∀ a, ¬(s.start.toNat + s.cursor.toNat ≤ a ∧
          a < s.start.toNat + s.cursor.toNat + bytes.length) → t.byteAt a = s.byteAt a) ∧
      t = { State.reset with
        device := t.device, cfg := s.cfg, inputs := t.inputs, accesses := t.accesses }

/-- 70_reset_and_hazards.md R200, R202: whatever command reset or a power loss cuts short, and wherever,
the registers go to their reset values, no response is sent, and every byte of the device is the one
before the command or the one the whole command would have left. How a reset cuts a transfer short is
the model's reading (log entry 8), and so is that the inputs that wait stay (log entry 9). -/
def Obligations.InterruptedCommandNeverMixesABytesValue : Prop :=
  ∀ (s : State) (x : Input) (tx : Transaction) (rest : List Input),
    s.device.wf = true → s.inputs = x :: rest →
    ((∃ done, x = .powerLossDuring tx done) ∨ ∃ transferred, x = .resetDuring tx transferred) →
    ∃ t u, step s = .next t ∧ step { s with inputs := .command tx :: rest } = .next u ∧
      (∀ a, t.byteAt a = s.byteAt a ∨ t.byteAt a = u.byteAt a) ∧
      ∃ done, t = { State.reset with
        device := t.device, cfg := s.cfg, inputs := rest, accesses := u.accesses.take done }

/-- 20_memory.md R69, 70_reset_and_hazards.md R209: a direct host write changes one byte of the device
and nothing of the block. That the machine stops at an address the device does not have is the model's
choice (log entry 11). -/
def Obligations.HostWriteChangesOneByte : Prop :=
  ∀ (s : State) (a : Half) (v : Byte) (rest : List Input),
    s.device.wf = true → s.inputs = .hostWrite a v :: rest →
    (a.toNat < s.cfg.devN →
      ∃ t, step s = .next t ∧ (∀ b, t.byteAt b = if b = a.toNat then v else s.byteAt b) ∧
        t = { s with device := t.device, inputs := rest }) ∧
    (s.cfg.devN ≤ a.toNat → step s = .fault .hostWriteOutOfRange)

/-! ## Rules of the whole machine -/

/-- 60_exceptions.md R170 with 00_scope.md R10 and R174: every command ends in exactly one of three
ways: OK; a failure status with no other effect; a fault, recorded from an unfaulted block, with no
other effect. -/
def Obligations.CommandEndsInOneOfThreeWays : Prop :=
  ∀ (i : Instr) (s : State), ∃ t, exec i s = .next t ∧
    ((t.status = 0 ∧ t.fault = s.fault ∧ t.faultCause = s.faultCause ∧ t.faultCmd = s.faultCmd) ∨
     (t.status ≠ 0 ∧ t.status.toNat ≤ 6 ∧ t = s.answered t.status) ∨
     (s.fault = false ∧ ∃ cause : BitVec 8, (cause = 1 ∨ cause = 2) ∧ t = s.faultedBy cause i.cmd))

/-- 41_window.md R132: a transfer moves exactly its bytes and advances the cursor by their number, or
moves none and leaves the cursor. -/
def Obligations.TransfersAreAllOrNothing : Prop :=
  ∀ (i : Instr) (s t : State), i.isTransfer = true → exec i s = .next t →
    (t.status = 0 ∧ t.accesses.map Access.addr =
        (List.range i.count).map (fun k => s.start.toNat + s.cursor.toNat + k) ∧
      t.cursor = s.cursor + BitVec.ofNat 16 i.count) ∨
    (t.status ≠ 0 ∧ t.accesses = [] ∧ t.device = s.device ∧ t.cursor = s.cursor)

/-- 70_reset_and_hazards.md R211: a command that is no window transfer makes no device access; a
transfer that ends OK makes exactly as many as it has bytes. -/
def Obligations.DeviceAccessesAreCounted : Prop :=
  ∀ (i : Instr) (s t : State), exec i s = .next t →
    (i.isTransfer = false → t.accesses = [] ∧ t.device = s.device) ∧
    (i.isTransfer = true → t.status = 0 → t.accesses.length = i.count)

/-- 20_memory.md R61: the device after a command is the device before it with the command's single-byte
writes performed in the order made. -/
def Obligations.DeviceIsWhatTheWritesLeft : Prop :=
  ∀ (i : Instr) (s t : State), exec i s = .next t → t.device = s.device.perform t.accesses

/-- 10_state.md R27: `RDATA` is written only by a command that returns data and ends OK. -/
def Obligations.OnlyDataCommandsThatEndOkWriteRdata : Prop :=
  ∀ (i : Instr) (s t : State), exec i s = .next t →
    (i.returnsData = false ∨ t.status ≠ 0) → t.rdata = s.rdata

/-- 30_encoding.md R80: the response carries `STATUS` and `RDATA` as the command left them, and bytes
only for a `win.rdb` that ends OK. -/
def Obligations.ResponseCarriesTheRegisters : Prop :=
  ∀ (i : Instr) (s t : State), exec i s = .next t →
    ∃ r, t.response = some r ∧ r.status = t.status ∧ r.rdata = t.rdata ∧
      (r.rbytes ≠ [] → (∃ k, i = .winRdb k) ∧ t.status = 0)

/-- 41_window.md R120: without a window, each window-dependent command ends NO_WINDOW and changes nothing
else; no other command ever ends so. -/
def Obligations.NoWindowStopsWindowCommands : Prop :=
  ∀ (i : Instr) (s : State),
    (i.needsWindow = true → s.fault = false → s.valid = false →
      exec i s = .next (s.answered 4)) ∧
    (i.needsWindow = false → ∀ t, exec i s = .next t → t.status ≠ 4)

/-- 41_window.md R133, 20_memory.md R66: a window command neither reads nor writes `ACC`: with any other
accumulator it does the same, and leaves that accumulator. -/
def Obligations.WindowCommandsIgnoreTheAccumulator : Prop :=
  ∀ (i : Instr) (s : State) (v : Word), i.isWindow = true →
    exec i { s with acc := v } = mapNext (fun t => { t with acc := v }) (exec i s) ∧
    ∀ t, exec i s = .next t → t.acc = s.acc

/-- 20_memory.md R66: a CRC command neither reads nor changes the device or the window registers. -/
def Obligations.CrcCommandsIgnoreTheWindowAndDevice : Prop :=
  ∀ (i : Instr) (s o : State), i.isCrc = true →
    exec i { s with
        device := o.device, valid := o.valid, writable := o.writable, start := o.start
        length := o.length, cursor := o.cursor } =
      mapNext (fun t => { t with
        device := o.device, valid := o.valid, writable := o.writable, start := o.start
        length := o.length, cursor := o.cursor }) (exec i s)

/-- 60_exceptions.md R176: only an input that resets the block leaves the faulted state, and no other
changes the first fault's record. -/
def Obligations.OnlyResetLeavesTheFaultedState : Prop :=
  ∀ (s t : State) (x : Input) (rest : List Input), s.inputs = x :: rest → s.fault = true →
    step s = .next t →
    (x.isReset = true → t.fault = false ∧ t.faultCause = 0 ∧ t.faultCmd = 0) ∧
    (x.isReset = false →
      t.fault = true ∧ t.faultCause = s.faultCause ∧ t.faultCmd = s.faultCmd)

/-- 60_exceptions.md R173, R174: a step that enters the faulted state is a command transaction, records
its very word and the cause of its kind, and changes nothing else. -/
def Obligations.FaultEntryRecordsTheWordOfTheTransaction : Prop :=
  ∀ (s t : State), s.fault = false → step s = .next t → t.fault = true →
    ∃ tx rest, s.inputs = .command tx :: rest ∧
      ((t = ({ s with inputs := rest } : State).faultedBy 1 tx.cmd ∧
          (opField tx.cmd = 0x10 ∨ opField tx.cmd = 0x11)) ∨
       (t = ({ s with inputs := rest } : State).faultedBy 2 tx.cmd ∧
          (opField tx.cmd = 0x16 ∨ opField tx.cmd = 0x17 ∨ opField tx.cmd = 0x18 ∨
            opField tx.cmd = 0x19)))

/-- 20_memory.md R65, R54, R60: in a legal window every device access of a command lies in the window, at
or after the cursor, on the device, and at most at 65533; every other byte of the device stays; and a
read-only window changes no byte. -/
def Obligations.WindowConfinesDeviceAccess : Prop :=
  ∀ (i : Instr) (s t : State), s.windowWf → s.device.wf = true → exec i s = .next t →
    (∀ x ∈ t.accesses, s.valid = true ∧ s.start.toNat + s.cursor.toNat ≤ x.addr ∧
      x.addr < s.start.toNat + s.length.toNat ∧ x.addr < s.cfg.devN ∧ x.addr ≤ 65533) ∧
    (∀ a, t.byteAt a ≠ s.byteAt a → s.writable = true ∧ ∃ v, Access.write a v ∈ t.accesses) ∧
    (s.writable = false → t.device = s.device)

/-- 70_reset_and_hazards.md R204, 00_scope.md R7: no step changes the parameters of the block. -/
def Obligations.ParametersNeverChange : Prop :=
  ∀ s t : State, step s = .next t → t.cfg = s.cfg

/-- 20_memory.md R53: `DevUpdate` and `DevWrite` leave the device with the same bytes. -/
def Obligations.UpdateLeavesTheBytesOfWrite : Prop :=
  ∀ (m : Memory) (a : Nat) (v : Byte), m.wf = true →
    ∀ b, (m.update a v).read b = (m.write a v).read b

/-- 20_memory.md R57: the mixed-width example, at every address of a canonical device. -/
def Obligations.MixedWidthAccessIsLittleEndian : Prop :=
  ∀ (s : State) (a : Nat), s.device.wf = true →
    ((s.memWrite a 4 0x11223344).memRead a 2).1 = 0x3344 ∧
    ((s.memWrite a 4 0x11223344).memRead (a + 2) 2).1 = 0x1122 ∧
    ((s.memWrite a 4 0x11223344).memRead a 1).1 = 0x44

/-- 20_memory.md R61 with R55, R56: a typed write, a seek back and a typed read of the same width return
the value written, at every address and for every value of the width. -/
def Obligations.TypedReadReturnsWhatWasWritten : Prop :=
  ∀ (w : Width) (v : Data) (s : State) (rest : List Input),
    w.holds v = true → s.Inv → s.fault = false → s.writable = true → TransferFits w.bytes s →
    s.inputs = issue [.winWr w v, .winSeek s.cursor, .winRd w] ++ rest →
    ∃ t, runSteps 3 s = .next t ∧ t.status = 0 ∧ t.rdata = v ∧ t.inputs = rest

/-- 20_memory.md R61: an array write, a seek back and an array read of the same count return the bytes
written. -/
def Obligations.ArrayReadReturnsWhatWasWritten : Prop :=
  ∀ (bytes : List Byte) (s : State) (rest : List Input),
    bytes.length ≤ 65535 → s.Inv → s.fault = false → s.writable = true →
    TransferFits bytes.length s →
    s.inputs = issue [.winWrb bytes, .winSeek s.cursor,
      .winRdb (BitVec.ofNat 16 bytes.length)] ++ rest →
    ∃ t, runSteps 3 s = .next t ∧ t.inputs = rest ∧
      t.response = some ⟨0, s.rdata, bytes⟩

/-! ## The invariant -/

/-- The state after reset satisfies the invariant; its device image and its `DEV_N` are the model's own
(log entries 2, 4). -/
def Obligations.ResetSatisfiesTheInvariant : Prop := State.reset.Inv

/-- Every step keeps the invariant: the canonical device inside `0 .. DEV_N-1`, the legal window and
fault registers, the status codes 0–6, the response in step with the registers (10_state.md R24, R25,
R29; 60_exceptions.md R171). -/
def Obligations.StepKeepsTheInvariant : Prop :=
  ∀ s t : State, s.Inv → step s = .next t → t.Inv

/-! ## Hidden state -/

/-- 10_state.md R32: a transfer in progress becomes visible only through power loss. A reset during a
command leaves the device as it was before the command or as the whole command leaves it, for every
command and byte of it at once, with every register at its reset value and no response. That the input
says which of the two is the model's reading (log entry 8), and that the inputs that wait stay is log
entry 9. -/
def Obligations.ResetNeverShowsAHalfDoneTransfer : Prop :=
  ∀ (s : State) (tx : Transaction) (transferred : Bool) (rest : List Input),
    s.inputs = .resetDuring tx transferred :: rest →
    ∃ t u, step s = .next t ∧ step { s with inputs := .command tx :: rest } = .next u ∧
      t = { State.reset with
        device := if transferred then u.device else s.device, cfg := s.cfg, inputs := rest
        accesses := if transferred then u.accesses else [] }
end

