-- ==== Sys2Proof/Laws/Decode.lean ====
section
/-! SUPPORT. The fields of the command word, and what the decoder's operations answer. -/

namespace Sys2Proof

/-- Bit `i` of a command word (30_encoding.md R81). -/
theorem getLsbD_cmdWord (a : Half) (n op : BitVec 8) (i : Nat) :
    (cmdWord a n op).getLsbD i =
      if i < 8 then op.getLsbD i else if i < 16 then n.getLsbD (i - 8)
      else decide (i < 32) && a.getLsbD (i - 16) := by
  simp only [cmdWord, BitVec.getLsbD_or, BitVec.getLsbD_shiftLeft, BitVec.getLsbD_setWidth]
  rcases Nat.lt_or_ge i 8 with h8 | h8
  · simp [h8, show i < 16 by omega, show i < 32 by omega]
  · rcases Nat.lt_or_ge i 16 with h16 | h16
    · simp [h16, show ¬i < 8 by omega, show i < 32 by omega, show i - 8 < 32 by omega,
        BitVec.getLsbD_of_ge op i h8]
    · simp [show ¬i < 8 by omega, show ¬i < 16 by omega, BitVec.getLsbD_of_ge op i h8,
        BitVec.getLsbD_of_ge n (i - 8) (by omega)]
      by_cases h32 : i < 32
      · simp [show i - 16 < 32 by omega]
      · simp [h32]

@[simp] theorem opField_cmdWord (a : Half) (n op : BitVec 8) : opField (cmdWord a n op) = op := by
  apply BitVec.eq_of_getLsbD_eq
  intro i hi
  simp [opField, getLsbD_cmdWord, hi]

@[simp] theorem nField_cmdWord (a : Half) (n op : BitVec 8) : nField (cmdWord a n op) = n := by
  apply BitVec.eq_of_getLsbD_eq
  intro i hi
  simp [nField, getLsbD_cmdWord, hi, show 8 + i < 16 by omega]

@[simp] theorem aField_cmdWord (a : Half) (n op : BitVec 8) : aField (cmdWord a n op) = a := by
  apply BitVec.eq_of_getLsbD_eq
  intro i hi
  simp only [aField, BitVec.getLsbD_extractLsb', getLsbD_cmdWord]
  simp [hi, show ¬(16 + i < 8) by omega, show 16 + i < 32 by omega]

/-- A command word is its three fields: no bit is anywhere else (30_encoding.md R81). -/
theorem cmdWord_fields (cmd : Word) : cmdWord (aField cmd) (nField cmd) (opField cmd) = cmd := by
  apply BitVec.eq_of_getLsbD_eq
  intro i hi
  simp only [getLsbD_cmdWord, aField, nField, opField, BitVec.getLsbD_extractLsb']
  split
  · simp [*]
  · split
    · simp [show i - 8 < 8 by omega, show 8 + (i - 8) = i by omega]
    · simp [hi, show i - 16 < 16 by omega, show 16 + (i - 16) = i by omega]

@[simp] theorem Width.ofField_field (w : Width) : Width.ofField w.field = some w := by
  cases w <;> rfl

/-- The four legal width fields and no other (30_encoding.md R86). -/
theorem Width.ofField_eq_some {n : BitVec 8} {w : Width} (h : Width.ofField n = some w) :
    n = w.field := by
  unfold Width.ofField at h
  split at h <;> cases h <;> rfl

theorem Instr.wellFormed_winWrb {bytes : List Byte} :
    (Instr.winWrb bytes).wellFormed = true ↔ bytes.length ≤ 65535 := decide_eq_true_iff

theorem Transaction.wellFormed_iff {tx : Transaction} :
    tx.wellFormed = true ↔ tx.wbytes.length ≤ 65535 := decide_eq_true_iff

/-- What an accepted command says of its word and its byte list. -/
theorem acceptIf_ok {reservedClear lengthOk : Bool} {i j : Instr} :
    acceptIf reservedClear lengthOk i = .ok j ↔
      reservedClear = true ∧ lengthOk = true ∧ i = j := by
  cases reservedClear <;> cases lengthOk <;> simp [acceptIf]

/-- What an accepted typed transfer says of its word and its byte list. -/
theorem acceptTyped_ok {tx : Transaction} {make : Width → Instr} {j : Instr} :
    acceptTyped tx make = .ok j ↔
      ∃ w, nField tx.cmd = Width.field w ∧ aField tx.cmd = 0 ∧ tx.wbytes = [] ∧ make w = j := by
  unfold acceptTyped
  constructor
  · intro h
    split at h
    · split at h <;> cases h
    · next w hw =>
      obtain ⟨ha, hb, rfl⟩ := acceptIf_ok.1 h
      exact ⟨w, Width.ofField_eq_some hw, by simpa using ha, by simpa using hb, rfl⟩
  · rintro ⟨w, hn, ha, hb, rfl⟩
    rw [hn, Width.ofField_field]
    exact acceptIf_ok.2 ⟨by simp [ha], by simp [hb], rfl⟩

/-- A value of its width is not changed by taking the width's bits (30_encoding.md R82, R89). -/
theorem Width.truncate_of_holds {w : Width} {v : Data} (h : w.holds v = true) : w.truncate v = v := by
  apply BitVec.eq_of_toNat_eq
  cases w <;> simp only [Width.holds, decide_eq_true_eq] at h <;>
    simp [Width.truncate, BitVec.toNat_setWidth, BitVec.extractLsb'_toNat]
  · omega
  · omega
  · omega

/-- The bits of a width are a value of that width (30_encoding.md R82, R89). -/
theorem Width.holds_truncate (w : Width) (v : Data) : w.holds (w.truncate v) = true := by
  cases w <;> simp [Width.holds, Width.truncate, BitVec.toNat_setWidth, BitVec.extractLsb'_toNat] <;>
    omega

end Sys2Proof
end

