-- ==== Sys2Proof/Laws/Memory.lean ====
section
/-! SUPPORT. The laws of the device's bytes: a read after a write, and that every operation keeps the
canonical form. -/

namespace Sys2Proof.Machine

@[simp] theorem Memory.read_nil (a : Nat) : Memory.read [] a = Memory.blank := rfl

theorem Memory.read_cons (k : Nat) (v : Byte) (m : Memory) (a : Nat) :
    Memory.read ((k, v) :: m) a = if k = a then v else Memory.read m a := rfl

/-- Below its first possible address a canonical memory lists nothing. -/
theorem Memory.read_below {m : Memory} {low a : Nat} (h : m.wfFrom low = true) (ha : a < low) :
    m.read a = Memory.blank := by
  induction m generalizing low with
  | nil => rfl
  | cons c rest ih =>
    obtain ⟨k, v⟩ := c
    simp only [Memory.wfFrom, Bool.and_eq_true, decide_eq_true_eq] at h
    rw [Memory.read_cons, if_neg (by omega)]
    exact ih h.2 (by omega)

theorem Memory.read_consCell (k : Nat) (v : Byte) {m : Memory} (h : m.wfFrom (k + 1) = true)
    (a : Nat) : (Memory.cons k v m).read a = if k = a then v else m.read a := by
  unfold Memory.cons
  split
  · next hv =>
    split
    · next hk => rw [hv, Memory.read_below h (by omega)]
    · rfl
  · rfl

theorem Memory.wfFrom_mono {m : Memory} {low low' : Nat} (h : m.wfFrom low = true)
    (hl : low' ≤ low) : m.wfFrom low' = true := by
  cases m with
  | nil => rfl
  | cons c rest =>
    obtain ⟨k, v⟩ := c
    simp only [Memory.wfFrom, Bool.and_eq_true, decide_eq_true_eq] at h ⊢
    exact ⟨⟨by omega, h.1.2⟩, h.2⟩

theorem Memory.wfFrom_cons {m : Memory} {k low : Nat} (v : Byte) (h : m.wfFrom (k + 1) = true)
    (hl : low ≤ k) : (Memory.cons k v m).wfFrom low = true := by
  unfold Memory.cons
  split
  · exact Memory.wfFrom_mono h (by omega)
  · next hv => simp [Memory.wfFrom, h, hl, hv]

/-- Writing keeps the canonical form from any address up to the one written. -/
theorem Memory.wfFrom_write {m : Memory} {low a : Nat} (v : Byte) (h : m.wfFrom low = true)
    (hl : low ≤ a) : (m.write a v).wfFrom low = true := by
  induction m generalizing low with
  | nil => exact Memory.wfFrom_cons v rfl hl
  | cons c rest ih =>
    obtain ⟨k, x⟩ := c
    simp only [Memory.wfFrom, Bool.and_eq_true, decide_eq_true_eq] at h
    unfold Memory.write
    split
    · next hlt =>
      refine Memory.wfFrom_cons v ?_ hl
      simp [Memory.wfFrom, h]
      omega
    · split
      · next hk => exact Memory.wfFrom_cons v (hk ▸ h.2) hl
      · next hge hne =>
        simp only [Memory.wfFrom, Bool.and_eq_true, decide_eq_true_eq]
        exact ⟨h.1, ih h.2 (by omega)⟩

/-- Writing keeps the canonical form. -/
theorem Memory.wf_write {m : Memory} (a : Nat) (v : Byte) (h : m.wf = true) :
    (m.write a v).wf = true := Memory.wfFrom_write v h (Nat.zero_le a)

/-- A read after a write: the byte written at its address, the old byte everywhere else. -/
theorem Memory.read_write {m : Memory} {low : Nat} (h : m.wfFrom low = true) (a : Nat) (v : Byte)
    (b : Nat) : (m.write a v).read b = if a = b then v else m.read b := by
  induction m generalizing low with
  | nil => exact Memory.read_consCell a v rfl b
  | cons c rest ih =>
    obtain ⟨k, x⟩ := c
    simp only [Memory.wfFrom, Bool.and_eq_true, decide_eq_true_eq] at h
    unfold Memory.write
    split
    · next hlt =>
      refine Memory.read_consCell a v ?_ b
      simp [Memory.wfFrom, h]
      omega
    · split
      · next hk =>
        subst hk
        rw [Memory.read_consCell a v h.2, Memory.read_cons]
        split <;> rfl
      · next hge hne =>
        rw [Memory.read_cons, Memory.read_cons, ih h.2]
        split
        · next hkb => rw [if_neg (by omega)]
        · rfl

theorem Memory.within_cons {n k : Nat} (v : Byte) {m : Memory} (h : m.within n = true) (hk : k < n) :
    (Memory.cons k v m).within n = true := by
  unfold Memory.cons
  split
  · exact h
  · simpa [Memory.within, hk] using h

/-- Writing inside the device keeps every cell inside it. -/
theorem Memory.within_write {n a : Nat} (v : Byte) {m : Memory} (h : m.within n = true)
    (ha : a < n) : (m.write a v).within n = true := by
  induction m with
  | nil => exact Memory.within_cons v rfl ha
  | cons c rest ih =>
    obtain ⟨k, x⟩ := c
    have hr : Memory.within n rest = true := by
      simp only [Memory.within, List.all_cons, Bool.and_eq_true] at h
      exact h.2
    have hk : k < n := by
      simp only [Memory.within, List.all_cons, Bool.and_eq_true, decide_eq_true_eq] at h
      exact h.1
    unfold Memory.write
    split
    · exact Memory.within_cons v h ha
    · split
      · exact Memory.within_cons v hr ha
      · have := ih hr
        simp only [Memory.within, List.all_cons, Bool.and_eq_true, decide_eq_true_eq] at this ⊢
        exact ⟨hk, this⟩

/-- Canonical memories with the same bytes are the same list. -/
theorem Memory.eq_of_read_eq {m m' : Memory} {low low' : Nat} (h : m.wfFrom low = true)
    (h' : m'.wfFrom low' = true) (heq : ∀ a, m.read a = m'.read a) : m = m' := by
  induction m generalizing m' low low' with
  | nil =>
    cases m' with
    | nil => rfl
    | cons c rest =>
      obtain ⟨k, v⟩ := c
      simp only [Memory.wfFrom, Bool.and_eq_true, decide_eq_true_eq, bne_iff_ne] at h'
      have := heq k
      rw [Memory.read_cons, if_pos rfl] at this
      exact absurd this.symm h'.1.2
  | cons c rest ih =>
    obtain ⟨k, v⟩ := c
    simp only [Memory.wfFrom, Bool.and_eq_true, decide_eq_true_eq, bne_iff_ne] at h
    cases m' with
    | nil =>
      have := heq k
      rw [Memory.read_cons, if_pos rfl] at this
      exact absurd this h.1.2
    | cons c' rest' =>
      obtain ⟨k', v'⟩ := c'
      simp only [Memory.wfFrom, Bool.and_eq_true, decide_eq_true_eq, bne_iff_ne] at h'
      have hkk : k = k' := by
        rcases Nat.lt_trichotomy k k' with hlt | heq' | hgt
        · have := heq k
          rw [Memory.read_cons, if_pos rfl, Memory.read_cons, if_neg (by omega),
            Memory.read_below h'.2 (by omega)] at this
          exact absurd this h.1.2
        · exact heq'
        · have := heq k'
          rw [Memory.read_cons, if_neg (by omega), Memory.read_cons, if_pos rfl,
            Memory.read_below h.2 (by omega)] at this
          exact absurd this.symm h'.1.2
      subst hkk
      have hv : v = v' := by
        have := heq k
        rwa [Memory.read_cons, if_pos rfl, Memory.read_cons, if_pos rfl] at this
      subst hv
      have : rest = rest' := ih h.2 h'.2 fun a => by
        by_cases hka : k = a
        · subst hka
          rw [Memory.read_below h.2 (by omega), Memory.read_below h'.2 (by omega)]
        · have := heq a
          rwa [Memory.read_cons, if_neg hka, Memory.read_cons, if_neg hka] at this
      rw [this]

theorem Memory.wf_perform {m : Memory} (xs : List Access) (h : m.wf = true) :
    (m.perform xs).wf = true := by
  induction xs generalizing m with
  | nil => exact h
  | cons x rest ih =>
    cases x with
    | read a => exact ih h
    | write a v => exact ih (Memory.wf_write a v h)

theorem Memory.perform_append (m : Memory) (xs ys : List Access) :
    m.perform (xs ++ ys) = (m.perform xs).perform ys := by
  induction xs generalizing m with
  | nil => rfl
  | cons x rest ih => cases x <;> exact ih _

theorem Memory.wf_update {m : Memory} (a : Nat) (v : Byte) (h : m.wf = true) :
    (m.update a v).wf = true := by
  unfold Memory.update
  split
  · exact h
  · exact Memory.wf_write a v h

end Sys2Proof.Machine
end

