-- ==== Sys2Proof/Laws/State.lean ====
section
/-! SUPPORT. What each update of the state leaves in each field: one lemma per field per update. -/

namespace Sys2Proof.Machine

/-! `State.setAcc` -/

@[simp] theorem State.setAcc_acc (s : State) (v : Word) :
    (s.setAcc v).acc = v := rfl
@[simp] theorem State.setAcc_valid (s : State) (v : Word) :
    (s.setAcc v).valid = s.valid := rfl
@[simp] theorem State.setAcc_writable (s : State) (v : Word) :
    (s.setAcc v).writable = s.writable := rfl
@[simp] theorem State.setAcc_start (s : State) (v : Word) :
    (s.setAcc v).start = s.start := rfl
@[simp] theorem State.setAcc_length (s : State) (v : Word) :
    (s.setAcc v).length = s.length := rfl
@[simp] theorem State.setAcc_cursor (s : State) (v : Word) :
    (s.setAcc v).cursor = s.cursor := rfl
@[simp] theorem State.setAcc_rdata (s : State) (v : Word) :
    (s.setAcc v).rdata = s.rdata := rfl
@[simp] theorem State.setAcc_status (s : State) (v : Word) :
    (s.setAcc v).status = s.status := rfl
@[simp] theorem State.setAcc_fault (s : State) (v : Word) :
    (s.setAcc v).fault = s.fault := rfl
@[simp] theorem State.setAcc_faultCause (s : State) (v : Word) :
    (s.setAcc v).faultCause = s.faultCause := rfl
@[simp] theorem State.setAcc_faultCmd (s : State) (v : Word) :
    (s.setAcc v).faultCmd = s.faultCmd := rfl
@[simp] theorem State.setAcc_device (s : State) (v : Word) :
    (s.setAcc v).device = s.device := rfl
@[simp] theorem State.setAcc_cfg (s : State) (v : Word) :
    (s.setAcc v).cfg = s.cfg := rfl
@[simp] theorem State.setAcc_response (s : State) (v : Word) :
    (s.setAcc v).response = s.response := rfl
@[simp] theorem State.setAcc_accesses (s : State) (v : Word) :
    (s.setAcc v).accesses = s.accesses := rfl
@[simp] theorem State.setAcc_inputs (s : State) (v : Word) :
    (s.setAcc v).inputs = s.inputs := rfl

/-! `State.setRdata` -/

@[simp] theorem State.setRdata_acc (s : State) (v : Data) :
    (s.setRdata v).acc = s.acc := rfl
@[simp] theorem State.setRdata_valid (s : State) (v : Data) :
    (s.setRdata v).valid = s.valid := rfl
@[simp] theorem State.setRdata_writable (s : State) (v : Data) :
    (s.setRdata v).writable = s.writable := rfl
@[simp] theorem State.setRdata_start (s : State) (v : Data) :
    (s.setRdata v).start = s.start := rfl
@[simp] theorem State.setRdata_length (s : State) (v : Data) :
    (s.setRdata v).length = s.length := rfl
@[simp] theorem State.setRdata_cursor (s : State) (v : Data) :
    (s.setRdata v).cursor = s.cursor := rfl
@[simp] theorem State.setRdata_rdata (s : State) (v : Data) :
    (s.setRdata v).rdata = v := rfl
@[simp] theorem State.setRdata_status (s : State) (v : Data) :
    (s.setRdata v).status = s.status := rfl
@[simp] theorem State.setRdata_fault (s : State) (v : Data) :
    (s.setRdata v).fault = s.fault := rfl
@[simp] theorem State.setRdata_faultCause (s : State) (v : Data) :
    (s.setRdata v).faultCause = s.faultCause := rfl
@[simp] theorem State.setRdata_faultCmd (s : State) (v : Data) :
    (s.setRdata v).faultCmd = s.faultCmd := rfl
@[simp] theorem State.setRdata_device (s : State) (v : Data) :
    (s.setRdata v).device = s.device := rfl
@[simp] theorem State.setRdata_cfg (s : State) (v : Data) :
    (s.setRdata v).cfg = s.cfg := rfl
@[simp] theorem State.setRdata_response (s : State) (v : Data) :
    (s.setRdata v).response = s.response := rfl
@[simp] theorem State.setRdata_accesses (s : State) (v : Data) :
    (s.setRdata v).accesses = s.accesses := rfl
@[simp] theorem State.setRdata_inputs (s : State) (v : Data) :
    (s.setRdata v).inputs = s.inputs := rfl

/-! `State.setCursor` -/

@[simp] theorem State.setCursor_acc (s : State) (c : Half) :
    (s.setCursor c).acc = s.acc := rfl
@[simp] theorem State.setCursor_valid (s : State) (c : Half) :
    (s.setCursor c).valid = s.valid := rfl
@[simp] theorem State.setCursor_writable (s : State) (c : Half) :
    (s.setCursor c).writable = s.writable := rfl
@[simp] theorem State.setCursor_start (s : State) (c : Half) :
    (s.setCursor c).start = s.start := rfl
@[simp] theorem State.setCursor_length (s : State) (c : Half) :
    (s.setCursor c).length = s.length := rfl
@[simp] theorem State.setCursor_cursor (s : State) (c : Half) :
    (s.setCursor c).cursor = c := rfl
@[simp] theorem State.setCursor_rdata (s : State) (c : Half) :
    (s.setCursor c).rdata = s.rdata := rfl
@[simp] theorem State.setCursor_status (s : State) (c : Half) :
    (s.setCursor c).status = s.status := rfl
@[simp] theorem State.setCursor_fault (s : State) (c : Half) :
    (s.setCursor c).fault = s.fault := rfl
@[simp] theorem State.setCursor_faultCause (s : State) (c : Half) :
    (s.setCursor c).faultCause = s.faultCause := rfl
@[simp] theorem State.setCursor_faultCmd (s : State) (c : Half) :
    (s.setCursor c).faultCmd = s.faultCmd := rfl
@[simp] theorem State.setCursor_device (s : State) (c : Half) :
    (s.setCursor c).device = s.device := rfl
@[simp] theorem State.setCursor_cfg (s : State) (c : Half) :
    (s.setCursor c).cfg = s.cfg := rfl
@[simp] theorem State.setCursor_response (s : State) (c : Half) :
    (s.setCursor c).response = s.response := rfl
@[simp] theorem State.setCursor_accesses (s : State) (c : Half) :
    (s.setCursor c).accesses = s.accesses := rfl
@[simp] theorem State.setCursor_inputs (s : State) (c : Half) :
    (s.setCursor c).inputs = s.inputs := rfl

/-! `State.advance` -/

@[simp] theorem State.advance_acc (s : State) (n : Nat) :
    (s.advance n).acc = s.acc := rfl
@[simp] theorem State.advance_valid (s : State) (n : Nat) :
    (s.advance n).valid = s.valid := rfl
@[simp] theorem State.advance_writable (s : State) (n : Nat) :
    (s.advance n).writable = s.writable := rfl
@[simp] theorem State.advance_start (s : State) (n : Nat) :
    (s.advance n).start = s.start := rfl
@[simp] theorem State.advance_length (s : State) (n : Nat) :
    (s.advance n).length = s.length := rfl
@[simp] theorem State.advance_cursor (s : State) (n : Nat) :
    (s.advance n).cursor = s.cursor + BitVec.ofNat 16 n := rfl
@[simp] theorem State.advance_rdata (s : State) (n : Nat) :
    (s.advance n).rdata = s.rdata := rfl
@[simp] theorem State.advance_status (s : State) (n : Nat) :
    (s.advance n).status = s.status := rfl
@[simp] theorem State.advance_fault (s : State) (n : Nat) :
    (s.advance n).fault = s.fault := rfl
@[simp] theorem State.advance_faultCause (s : State) (n : Nat) :
    (s.advance n).faultCause = s.faultCause := rfl
@[simp] theorem State.advance_faultCmd (s : State) (n : Nat) :
    (s.advance n).faultCmd = s.faultCmd := rfl
@[simp] theorem State.advance_device (s : State) (n : Nat) :
    (s.advance n).device = s.device := rfl
@[simp] theorem State.advance_cfg (s : State) (n : Nat) :
    (s.advance n).cfg = s.cfg := rfl
@[simp] theorem State.advance_response (s : State) (n : Nat) :
    (s.advance n).response = s.response := rfl
@[simp] theorem State.advance_accesses (s : State) (n : Nat) :
    (s.advance n).accesses = s.accesses := rfl
@[simp] theorem State.advance_inputs (s : State) (n : Nat) :
    (s.advance n).inputs = s.inputs := rfl

/-! `State.openWindow` -/

@[simp] theorem State.openWindow_acc (s : State) (w : Bool) (a l : Half) :
    (s.openWindow w a l).acc = s.acc := rfl
@[simp] theorem State.openWindow_valid (s : State) (w : Bool) (a l : Half) :
    (s.openWindow w a l).valid = true := rfl
@[simp] theorem State.openWindow_writable (s : State) (w : Bool) (a l : Half) :
    (s.openWindow w a l).writable = w := rfl
@[simp] theorem State.openWindow_start (s : State) (w : Bool) (a l : Half) :
    (s.openWindow w a l).start = a := rfl
@[simp] theorem State.openWindow_length (s : State) (w : Bool) (a l : Half) :
    (s.openWindow w a l).length = l := rfl
@[simp] theorem State.openWindow_cursor (s : State) (w : Bool) (a l : Half) :
    (s.openWindow w a l).cursor = 0 := rfl
@[simp] theorem State.openWindow_rdata (s : State) (w : Bool) (a l : Half) :
    (s.openWindow w a l).rdata = s.rdata := rfl
@[simp] theorem State.openWindow_status (s : State) (w : Bool) (a l : Half) :
    (s.openWindow w a l).status = s.status := rfl
@[simp] theorem State.openWindow_fault (s : State) (w : Bool) (a l : Half) :
    (s.openWindow w a l).fault = s.fault := rfl
@[simp] theorem State.openWindow_faultCause (s : State) (w : Bool) (a l : Half) :
    (s.openWindow w a l).faultCause = s.faultCause := rfl
@[simp] theorem State.openWindow_faultCmd (s : State) (w : Bool) (a l : Half) :
    (s.openWindow w a l).faultCmd = s.faultCmd := rfl
@[simp] theorem State.openWindow_device (s : State) (w : Bool) (a l : Half) :
    (s.openWindow w a l).device = s.device := rfl
@[simp] theorem State.openWindow_cfg (s : State) (w : Bool) (a l : Half) :
    (s.openWindow w a l).cfg = s.cfg := rfl
@[simp] theorem State.openWindow_response (s : State) (w : Bool) (a l : Half) :
    (s.openWindow w a l).response = s.response := rfl
@[simp] theorem State.openWindow_accesses (s : State) (w : Bool) (a l : Half) :
    (s.openWindow w a l).accesses = s.accesses := rfl
@[simp] theorem State.openWindow_inputs (s : State) (w : Bool) (a l : Half) :
    (s.openWindow w a l).inputs = s.inputs := rfl

/-! `State.closeWindow` -/

@[simp] theorem State.closeWindow_acc (s : State) :
    (s.closeWindow).acc = s.acc := rfl
@[simp] theorem State.closeWindow_valid (s : State) :
    (s.closeWindow).valid = false := rfl
@[simp] theorem State.closeWindow_writable (s : State) :
    (s.closeWindow).writable = false := rfl
@[simp] theorem State.closeWindow_start (s : State) :
    (s.closeWindow).start = 0 := rfl
@[simp] theorem State.closeWindow_length (s : State) :
    (s.closeWindow).length = 0 := rfl
@[simp] theorem State.closeWindow_cursor (s : State) :
    (s.closeWindow).cursor = 0 := rfl
@[simp] theorem State.closeWindow_rdata (s : State) :
    (s.closeWindow).rdata = s.rdata := rfl
@[simp] theorem State.closeWindow_status (s : State) :
    (s.closeWindow).status = s.status := rfl
@[simp] theorem State.closeWindow_fault (s : State) :
    (s.closeWindow).fault = s.fault := rfl
@[simp] theorem State.closeWindow_faultCause (s : State) :
    (s.closeWindow).faultCause = s.faultCause := rfl
@[simp] theorem State.closeWindow_faultCmd (s : State) :
    (s.closeWindow).faultCmd = s.faultCmd := rfl
@[simp] theorem State.closeWindow_device (s : State) :
    (s.closeWindow).device = s.device := rfl
@[simp] theorem State.closeWindow_cfg (s : State) :
    (s.closeWindow).cfg = s.cfg := rfl
@[simp] theorem State.closeWindow_response (s : State) :
    (s.closeWindow).response = s.response := rfl
@[simp] theorem State.closeWindow_accesses (s : State) :
    (s.closeWindow).accesses = s.accesses := rfl
@[simp] theorem State.closeWindow_inputs (s : State) :
    (s.closeWindow).inputs = s.inputs := rfl

/-! `State.devWrite` -/

@[simp] theorem State.devWrite_acc (s : State) (a : Nat) (v : Byte) :
    (s.devWrite a v).acc = s.acc := rfl
@[simp] theorem State.devWrite_valid (s : State) (a : Nat) (v : Byte) :
    (s.devWrite a v).valid = s.valid := rfl
@[simp] theorem State.devWrite_writable (s : State) (a : Nat) (v : Byte) :
    (s.devWrite a v).writable = s.writable := rfl
@[simp] theorem State.devWrite_start (s : State) (a : Nat) (v : Byte) :
    (s.devWrite a v).start = s.start := rfl
@[simp] theorem State.devWrite_length (s : State) (a : Nat) (v : Byte) :
    (s.devWrite a v).length = s.length := rfl
@[simp] theorem State.devWrite_cursor (s : State) (a : Nat) (v : Byte) :
    (s.devWrite a v).cursor = s.cursor := rfl
@[simp] theorem State.devWrite_rdata (s : State) (a : Nat) (v : Byte) :
    (s.devWrite a v).rdata = s.rdata := rfl
@[simp] theorem State.devWrite_status (s : State) (a : Nat) (v : Byte) :
    (s.devWrite a v).status = s.status := rfl
@[simp] theorem State.devWrite_fault (s : State) (a : Nat) (v : Byte) :
    (s.devWrite a v).fault = s.fault := rfl
@[simp] theorem State.devWrite_faultCause (s : State) (a : Nat) (v : Byte) :
    (s.devWrite a v).faultCause = s.faultCause := rfl
@[simp] theorem State.devWrite_faultCmd (s : State) (a : Nat) (v : Byte) :
    (s.devWrite a v).faultCmd = s.faultCmd := rfl
@[simp] theorem State.devWrite_device (s : State) (a : Nat) (v : Byte) :
    (s.devWrite a v).device = s.device.write a v := rfl
@[simp] theorem State.devWrite_cfg (s : State) (a : Nat) (v : Byte) :
    (s.devWrite a v).cfg = s.cfg := rfl
@[simp] theorem State.devWrite_response (s : State) (a : Nat) (v : Byte) :
    (s.devWrite a v).response = s.response := rfl
@[simp] theorem State.devWrite_accesses (s : State) (a : Nat) (v : Byte) :
    (s.devWrite a v).accesses = s.accesses ++ [.write a v] := rfl
@[simp] theorem State.devWrite_inputs (s : State) (a : Nat) (v : Byte) :
    (s.devWrite a v).inputs = s.inputs := rfl

/-! `State.devRead` -/

@[simp] theorem State.devRead_acc (s : State) (a : Nat) :
    ((s.devRead a).2).acc = s.acc := rfl
@[simp] theorem State.devRead_valid (s : State) (a : Nat) :
    ((s.devRead a).2).valid = s.valid := rfl
@[simp] theorem State.devRead_writable (s : State) (a : Nat) :
    ((s.devRead a).2).writable = s.writable := rfl
@[simp] theorem State.devRead_start (s : State) (a : Nat) :
    ((s.devRead a).2).start = s.start := rfl
@[simp] theorem State.devRead_length (s : State) (a : Nat) :
    ((s.devRead a).2).length = s.length := rfl
@[simp] theorem State.devRead_cursor (s : State) (a : Nat) :
    ((s.devRead a).2).cursor = s.cursor := rfl
@[simp] theorem State.devRead_rdata (s : State) (a : Nat) :
    ((s.devRead a).2).rdata = s.rdata := rfl
@[simp] theorem State.devRead_status (s : State) (a : Nat) :
    ((s.devRead a).2).status = s.status := rfl
@[simp] theorem State.devRead_fault (s : State) (a : Nat) :
    ((s.devRead a).2).fault = s.fault := rfl
@[simp] theorem State.devRead_faultCause (s : State) (a : Nat) :
    ((s.devRead a).2).faultCause = s.faultCause := rfl
@[simp] theorem State.devRead_faultCmd (s : State) (a : Nat) :
    ((s.devRead a).2).faultCmd = s.faultCmd := rfl
@[simp] theorem State.devRead_device (s : State) (a : Nat) :
    ((s.devRead a).2).device = s.device := rfl
@[simp] theorem State.devRead_cfg (s : State) (a : Nat) :
    ((s.devRead a).2).cfg = s.cfg := rfl
@[simp] theorem State.devRead_response (s : State) (a : Nat) :
    ((s.devRead a).2).response = s.response := rfl
@[simp] theorem State.devRead_accesses (s : State) (a : Nat) :
    ((s.devRead a).2).accesses = s.accesses ++ [.read a] := rfl
@[simp] theorem State.devRead_inputs (s : State) (a : Nat) :
    ((s.devRead a).2).inputs = s.inputs := rfl

/-! `State.startCommand` -/

@[simp] theorem State.startCommand_acc (s : State) :
    (s.startCommand).acc = s.acc := rfl
@[simp] theorem State.startCommand_valid (s : State) :
    (s.startCommand).valid = s.valid := rfl
@[simp] theorem State.startCommand_writable (s : State) :
    (s.startCommand).writable = s.writable := rfl
@[simp] theorem State.startCommand_start (s : State) :
    (s.startCommand).start = s.start := rfl
@[simp] theorem State.startCommand_length (s : State) :
    (s.startCommand).length = s.length := rfl
@[simp] theorem State.startCommand_cursor (s : State) :
    (s.startCommand).cursor = s.cursor := rfl
@[simp] theorem State.startCommand_rdata (s : State) :
    (s.startCommand).rdata = s.rdata := rfl
@[simp] theorem State.startCommand_status (s : State) :
    (s.startCommand).status = s.status := rfl
@[simp] theorem State.startCommand_fault (s : State) :
    (s.startCommand).fault = s.fault := rfl
@[simp] theorem State.startCommand_faultCause (s : State) :
    (s.startCommand).faultCause = s.faultCause := rfl
@[simp] theorem State.startCommand_faultCmd (s : State) :
    (s.startCommand).faultCmd = s.faultCmd := rfl
@[simp] theorem State.startCommand_device (s : State) :
    (s.startCommand).device = s.device := rfl
@[simp] theorem State.startCommand_cfg (s : State) :
    (s.startCommand).cfg = s.cfg := rfl
@[simp] theorem State.startCommand_response (s : State) :
    (s.startCommand).response = s.response := rfl
@[simp] theorem State.startCommand_accesses (s : State) :
    (s.startCommand).accesses = [] := rfl
@[simp] theorem State.startCommand_inputs (s : State) :
    (s.startCommand).inputs = s.inputs := rfl

/-! `State.finish` -/

@[simp] theorem State.finish_acc (s : State) (st : Status) (bs : List Byte) :
    (s.finish st bs).acc = s.acc := rfl
@[simp] theorem State.finish_valid (s : State) (st : Status) (bs : List Byte) :
    (s.finish st bs).valid = s.valid := rfl
@[simp] theorem State.finish_writable (s : State) (st : Status) (bs : List Byte) :
    (s.finish st bs).writable = s.writable := rfl
@[simp] theorem State.finish_start (s : State) (st : Status) (bs : List Byte) :
    (s.finish st bs).start = s.start := rfl
@[simp] theorem State.finish_length (s : State) (st : Status) (bs : List Byte) :
    (s.finish st bs).length = s.length := rfl
@[simp] theorem State.finish_cursor (s : State) (st : Status) (bs : List Byte) :
    (s.finish st bs).cursor = s.cursor := rfl
@[simp] theorem State.finish_rdata (s : State) (st : Status) (bs : List Byte) :
    (s.finish st bs).rdata = s.rdata := rfl
@[simp] theorem State.finish_status (s : State) (st : Status) (bs : List Byte) :
    (s.finish st bs).status = st.code := rfl
@[simp] theorem State.finish_fault (s : State) (st : Status) (bs : List Byte) :
    (s.finish st bs).fault = s.fault := rfl
@[simp] theorem State.finish_faultCause (s : State) (st : Status) (bs : List Byte) :
    (s.finish st bs).faultCause = s.faultCause := rfl
@[simp] theorem State.finish_faultCmd (s : State) (st : Status) (bs : List Byte) :
    (s.finish st bs).faultCmd = s.faultCmd := rfl
@[simp] theorem State.finish_device (s : State) (st : Status) (bs : List Byte) :
    (s.finish st bs).device = s.device := rfl
@[simp] theorem State.finish_cfg (s : State) (st : Status) (bs : List Byte) :
    (s.finish st bs).cfg = s.cfg := rfl
@[simp] theorem State.finish_response (s : State) (st : Status) (bs : List Byte) :
    (s.finish st bs).response = some { status := st.code, rdata := s.rdata, rbytes := bs } := rfl
@[simp] theorem State.finish_accesses (s : State) (st : Status) (bs : List Byte) :
    (s.finish st bs).accesses = s.accesses := rfl
@[simp] theorem State.finish_inputs (s : State) (st : Status) (bs : List Byte) :
    (s.finish st bs).inputs = s.inputs := rfl

/-! `State.finishOk` -/

@[simp] theorem State.finishOk_acc (s : State) :
    (s.finishOk).acc = s.acc := rfl
@[simp] theorem State.finishOk_valid (s : State) :
    (s.finishOk).valid = s.valid := rfl
@[simp] theorem State.finishOk_writable (s : State) :
    (s.finishOk).writable = s.writable := rfl
@[simp] theorem State.finishOk_start (s : State) :
    (s.finishOk).start = s.start := rfl
@[simp] theorem State.finishOk_length (s : State) :
    (s.finishOk).length = s.length := rfl
@[simp] theorem State.finishOk_cursor (s : State) :
    (s.finishOk).cursor = s.cursor := rfl
@[simp] theorem State.finishOk_rdata (s : State) :
    (s.finishOk).rdata = s.rdata := rfl
@[simp] theorem State.finishOk_status (s : State) :
    (s.finishOk).status = 0 := rfl
@[simp] theorem State.finishOk_fault (s : State) :
    (s.finishOk).fault = s.fault := rfl
@[simp] theorem State.finishOk_faultCause (s : State) :
    (s.finishOk).faultCause = s.faultCause := rfl
@[simp] theorem State.finishOk_faultCmd (s : State) :
    (s.finishOk).faultCmd = s.faultCmd := rfl
@[simp] theorem State.finishOk_device (s : State) :
    (s.finishOk).device = s.device := rfl
@[simp] theorem State.finishOk_cfg (s : State) :
    (s.finishOk).cfg = s.cfg := rfl
@[simp] theorem State.finishOk_response (s : State) :
    (s.finishOk).response = some { status := 0, rdata := s.rdata, rbytes := [] } := rfl
@[simp] theorem State.finishOk_accesses (s : State) :
    (s.finishOk).accesses = s.accesses := rfl
@[simp] theorem State.finishOk_inputs (s : State) :
    (s.finishOk).inputs = s.inputs := rfl

/-! `State.raiseFault` -/

@[simp] theorem State.raiseFault_acc (s : State) (c : FaultCause) (i : Instr) :
    (s.raiseFault c i).acc = s.acc := rfl
@[simp] theorem State.raiseFault_valid (s : State) (c : FaultCause) (i : Instr) :
    (s.raiseFault c i).valid = s.valid := rfl
@[simp] theorem State.raiseFault_writable (s : State) (c : FaultCause) (i : Instr) :
    (s.raiseFault c i).writable = s.writable := rfl
@[simp] theorem State.raiseFault_start (s : State) (c : FaultCause) (i : Instr) :
    (s.raiseFault c i).start = s.start := rfl
@[simp] theorem State.raiseFault_length (s : State) (c : FaultCause) (i : Instr) :
    (s.raiseFault c i).length = s.length := rfl
@[simp] theorem State.raiseFault_cursor (s : State) (c : FaultCause) (i : Instr) :
    (s.raiseFault c i).cursor = s.cursor := rfl
@[simp] theorem State.raiseFault_rdata (s : State) (c : FaultCause) (i : Instr) :
    (s.raiseFault c i).rdata = s.rdata := rfl
@[simp] theorem State.raiseFault_status (s : State) (c : FaultCause) (i : Instr) :
    (s.raiseFault c i).status = 6 := rfl
@[simp] theorem State.raiseFault_fault (s : State) (c : FaultCause) (i : Instr) :
    (s.raiseFault c i).fault = true := rfl
@[simp] theorem State.raiseFault_faultCause (s : State) (c : FaultCause) (i : Instr) :
    (s.raiseFault c i).faultCause = c.code := rfl
@[simp] theorem State.raiseFault_faultCmd (s : State) (c : FaultCause) (i : Instr) :
    (s.raiseFault c i).faultCmd = i.cmd := rfl
@[simp] theorem State.raiseFault_device (s : State) (c : FaultCause) (i : Instr) :
    (s.raiseFault c i).device = s.device := rfl
@[simp] theorem State.raiseFault_cfg (s : State) (c : FaultCause) (i : Instr) :
    (s.raiseFault c i).cfg = s.cfg := rfl
@[simp] theorem State.raiseFault_response (s : State) (c : FaultCause) (i : Instr) :
    (s.raiseFault c i).response = some { status := 6, rdata := s.rdata, rbytes := [] } := rfl
@[simp] theorem State.raiseFault_accesses (s : State) (c : FaultCause) (i : Instr) :
    (s.raiseFault c i).accesses = s.accesses := rfl
@[simp] theorem State.raiseFault_inputs (s : State) (c : FaultCause) (i : Instr) :
    (s.raiseFault c i).inputs = s.inputs := rfl

/-! `State.resetBlock` -/

@[simp] theorem State.resetBlock_acc (s : State) :
    (s.resetBlock).acc = 0xFFFFFFFF := rfl
@[simp] theorem State.resetBlock_valid (s : State) :
    (s.resetBlock).valid = false := rfl
@[simp] theorem State.resetBlock_writable (s : State) :
    (s.resetBlock).writable = false := rfl
@[simp] theorem State.resetBlock_start (s : State) :
    (s.resetBlock).start = 0 := rfl
@[simp] theorem State.resetBlock_length (s : State) :
    (s.resetBlock).length = 0 := rfl
@[simp] theorem State.resetBlock_cursor (s : State) :
    (s.resetBlock).cursor = 0 := rfl
@[simp] theorem State.resetBlock_rdata (s : State) :
    (s.resetBlock).rdata = 0 := rfl
@[simp] theorem State.resetBlock_status (s : State) :
    (s.resetBlock).status = 0 := rfl
@[simp] theorem State.resetBlock_fault (s : State) :
    (s.resetBlock).fault = false := rfl
@[simp] theorem State.resetBlock_faultCause (s : State) :
    (s.resetBlock).faultCause = 0 := rfl
@[simp] theorem State.resetBlock_faultCmd (s : State) :
    (s.resetBlock).faultCmd = 0 := rfl
@[simp] theorem State.resetBlock_device (s : State) :
    (s.resetBlock).device = s.device := rfl
@[simp] theorem State.resetBlock_cfg (s : State) :
    (s.resetBlock).cfg = s.cfg := rfl
@[simp] theorem State.resetBlock_response (s : State) :
    (s.resetBlock).response = none := rfl
@[simp] theorem State.resetBlock_accesses (s : State) :
    (s.resetBlock).accesses = [] := rfl
@[simp] theorem State.resetBlock_inputs (s : State) :
    (s.resetBlock).inputs = s.inputs := rfl

/-! `State.withInput` -/

@[simp] theorem State.withInput_acc (s : State) (x : Input) :
    (s.withInput x).acc = s.acc := rfl
@[simp] theorem State.withInput_valid (s : State) (x : Input) :
    (s.withInput x).valid = s.valid := rfl
@[simp] theorem State.withInput_writable (s : State) (x : Input) :
    (s.withInput x).writable = s.writable := rfl
@[simp] theorem State.withInput_start (s : State) (x : Input) :
    (s.withInput x).start = s.start := rfl
@[simp] theorem State.withInput_length (s : State) (x : Input) :
    (s.withInput x).length = s.length := rfl
@[simp] theorem State.withInput_cursor (s : State) (x : Input) :
    (s.withInput x).cursor = s.cursor := rfl
@[simp] theorem State.withInput_rdata (s : State) (x : Input) :
    (s.withInput x).rdata = s.rdata := rfl
@[simp] theorem State.withInput_status (s : State) (x : Input) :
    (s.withInput x).status = s.status := rfl
@[simp] theorem State.withInput_fault (s : State) (x : Input) :
    (s.withInput x).fault = s.fault := rfl
@[simp] theorem State.withInput_faultCause (s : State) (x : Input) :
    (s.withInput x).faultCause = s.faultCause := rfl
@[simp] theorem State.withInput_faultCmd (s : State) (x : Input) :
    (s.withInput x).faultCmd = s.faultCmd := rfl
@[simp] theorem State.withInput_device (s : State) (x : Input) :
    (s.withInput x).device = s.device := rfl
@[simp] theorem State.withInput_cfg (s : State) (x : Input) :
    (s.withInput x).cfg = s.cfg := rfl
@[simp] theorem State.withInput_response (s : State) (x : Input) :
    (s.withInput x).response = s.response := rfl
@[simp] theorem State.withInput_accesses (s : State) (x : Input) :
    (s.withInput x).accesses = s.accesses := rfl
@[simp] theorem State.withInput_inputs (s : State) (x : Input) :
    (s.withInput x).inputs = x :: s.inputs := rfl

end Sys2Proof.Machine
end

