-- ==== Sys2Proof/Laws/Ops.lean ====
section
/-! SUPPORT. What each shared operation can do, said once: the multi-byte reads and writes of the
device port, and the run of a command's checks. -/

namespace Sys2Proof.Machine

/-! ## Little-endian bytes -/

@[simp] theorem length_bytesOf (n : Nat) (v : Data) : (bytesOf n v).length = n := by
  induction n generalizing v with
  | zero => rfl
  | succ n ih => simp [bytesOf, ih]

/-- Byte `i` of a value is `v[8i+7:8i]` (20_memory.md R56). -/
theorem getElem?_bytesOf {n i : Nat} (v : Data) (h : i < n) :
    (bytesOf n v)[i]? = some (v.extractLsb' (8 * i) 8) := by
  induction n generalizing v i with
  | zero => omega
  | succ n ih =>
    cases i with
    | zero => rfl
    | succ i =>
      rw [bytesOf, List.getElem?_cons_succ, ih _ (by omega)]
      congr 1
      ext j hj
      simp only [BitVec.getElem_extractLsb', BitVec.getLsbD_ushiftRight]
      congr 1
      omega

theorem bytesOf_eq_map (n : Nat) (v : Data) :
    bytesOf n v = (List.range n).map fun k => v.extractLsb' (8 * k) 8 := by
  apply List.ext_getElem?
  intro i
  rcases Nat.lt_or_ge i n with h | h
  · rw [getElem?_bytesOf v h]
    simp [h]
  · simp [h]

/-- The value of `n` bytes is below `2^(8n)`: it is zero-extended (20_memory.md R55). -/
theorem valueOf_lt (bytes : List Byte) : (valueOf bytes).toNat < 2 ^ (8 * bytes.length) := by
  induction bytes with
  | nil => simp [valueOf]
  | cons b rest ih =>
    simp only [valueOf, BitVec.toNat_or, BitVec.toNat_shiftLeft, BitVec.toNat_setWidth,
      List.length_cons]
    apply Nat.or_lt_two_pow
    · calc b.toNat % 2 ^ 64 ≤ b.toNat := Nat.mod_le _ _
        _ < 2 ^ 8 := b.isLt
        _ ≤ 2 ^ (8 * (rest.length + 1)) := Nat.pow_le_pow_right (by omega) (by omega)
    · refine Nat.lt_of_le_of_lt (Nat.mod_le _ _) ?_
      rw [Nat.shiftLeft_eq, show 8 * (rest.length + 1) = 8 * rest.length + 8 by omega, Nat.pow_add]
      exact Nat.mul_lt_mul_of_pos_right ih (Nat.two_pow_pos 8)

/-- Byte `k` of the value of at most eight bytes is the list's byte `k` (20_memory.md R55). -/
theorem extractLsb'_valueOf {bytes : List Byte} (h : bytes.length ≤ 8) {k : Nat}
    (hk : k < bytes.length) : (valueOf bytes).extractLsb' (8 * k) 8 = bytes[k] := by
  induction bytes generalizing k with
  | nil => simp at hk
  | cons b rest ih =>
    simp only [List.length_cons] at h hk
    apply BitVec.eq_of_getLsbD_eq
    intro i hi
    simp only [valueOf, BitVec.getLsbD_extractLsb', BitVec.getLsbD_or, BitVec.getLsbD_shiftLeft,
      BitVec.getLsbD_setWidth, hi]
    cases k with
    | zero => simp [hi, show i < 64 by omega]
    | succ k =>
      rw [List.getElem_cons_succ, ← ih (by omega) (show k < rest.length by omega),
        BitVec.getLsbD_of_ge b _ (by omega)]
      simp [hi, show 8 * (k + 1) + i < 64 by omega, show ¬8 * (k + 1) + i < 8 by omega,
        show 8 * (k + 1) + i - 8 = 8 * k + i by omega]

/-! ## Multi-byte reads -/

/-- The reads of `count` bytes from `a`, in ascending order. -/
def readsFrom (a count : Nat) : List Access :=
  match count with
  | 0 => []
  | n + 1 => .read a :: readsFrom (a + 1) n

/-- The writes of a byte list from `a`, in ascending order. -/
def writesFrom (a : Nat) (bytes : List Byte) : List Access :=
  match bytes with
  | [] => []
  | b :: rest => .write a b :: writesFrom (a + 1) rest

@[simp] theorem length_readsFrom (a count : Nat) : (readsFrom a count).length = count := by
  induction count generalizing a with
  | zero => rfl
  | succ n ih => simp [readsFrom, ih]

@[simp] theorem length_writesFrom (a : Nat) (bytes : List Byte) :
    (writesFrom a bytes).length = bytes.length := by
  induction bytes generalizing a with
  | nil => rfl
  | cons b rest ih => simp [writesFrom, ih]

/-- Reading changes only the record of the accesses. -/
theorem State.readBytes_state (s : State) (a count : Nat) :
    (s.readBytes a count).2 = { s with accesses := s.accesses ++ readsFrom a count } := by
  induction count generalizing s a with
  | zero => simp [State.readBytes, readsFrom]
  | succ n ih => simp [State.readBytes, ih, readsFrom, State.devRead]

@[simp] theorem State.length_readBytes (s : State) (a count : Nat) :
    (s.readBytes a count).1.length = count := by
  induction count generalizing s a with
  | zero => rfl
  | succ n ih => simp [State.readBytes, ih]

/-- Byte `i` read is the device's byte at `a + i` (20_memory.md R55). -/
theorem State.getElem?_readBytes (s : State) {a count i : Nat} (h : i < count) :
    (s.readBytes a count).1[i]? = some (s.byteAt (a + i)) := by
  induction count generalizing s a i with
  | zero => omega
  | succ n ih =>
    cases i with
    | zero => rfl
    | succ i =>
      rw [State.readBytes, List.getElem?_cons_succ, ih _ (by omega)]
      simp only [State.devRead, State.byteAt]
      congr 2
      omega

/-- The reads of a multi-byte read, as a list. -/
theorem readsFrom_eq_map (a count : Nat) :
    readsFrom a count = (List.range count).map fun k => .read (a + k) := by
  induction count generalizing a with
  | zero => rfl
  | succ n ih =>
    rw [List.range_succ_eq_map, readsFrom, ih]
    simp [Function.comp_def, Nat.add_assoc, Nat.add_comm 1]

/-- The bytes of a multi-byte read, as a list (20_memory.md R55). -/
theorem State.readBytes_eq_map (s : State) (a count : Nat) :
    (s.readBytes a count).1 = (List.range count).map fun k => s.byteAt (a + k) := by
  apply List.ext_getElem?
  intro i
  rcases Nat.lt_or_ge i count with h | h
  · rw [State.getElem?_readBytes s h]
    simp [h]
  · simp [h]

/-! ## Multi-byte writes -/

/-- The writes of a multi-byte write, as a list. -/
theorem writesFrom_eq_mapIdx (a : Nat) (bytes : List Byte) :
    writesFrom a bytes = bytes.mapIdx fun k b => .write (a + k) b := by
  induction bytes generalizing a with
  | nil => rfl
  | cons b rest ih =>
    rw [writesFrom, ih, List.mapIdx_cons]
    simp [Nat.add_assoc, Nat.add_comm 1]

/-- Writing changes only the device and the record of the accesses. -/
theorem State.writeBytes_state (s : State) (a : Nat) (bytes : List Byte) :
    s.writeBytes a bytes =
      { s with
        device := s.device.perform (writesFrom a bytes)
        accesses := s.accesses ++ writesFrom a bytes } := by
  induction bytes generalizing s a with
  | nil => simp [State.writeBytes, writesFrom, Memory.perform]
  | cons b rest ih => simp [State.writeBytes, ih, writesFrom, State.devWrite, Memory.perform]

theorem Memory.perform_readsFrom (m : Memory) (a count : Nat) : m.perform (readsFrom a count) = m := by
  induction count generalizing a with
  | zero => rfl
  | succ n ih => exact ih (a + 1)

/-- The byte at `b` after a byte list is written from `a` on: the list's byte where it covers `b`, the
old byte elsewhere. -/
theorem Memory.read_writesFrom {m : Memory} (h : m.wf = true) (a : Nat) (bytes : List Byte)
    (b : Nat) : (m.perform (writesFrom a bytes)).read b =
      if a ≤ b then (bytes[b - a]?).getD (m.read b) else m.read b := by
  induction bytes generalizing m a with
  | nil => simp [writesFrom, Memory.perform]
  | cons x rest ih =>
    rw [writesFrom, Memory.perform, ih (Memory.wf_write a x h), Memory.read_write h]
    rcases Nat.lt_trichotomy a b with hlt | heq | hgt
    · have hsub : b - a = (b - (a + 1)) + 1 := by omega
      rw [hsub, List.getElem?_cons_succ]
      simp only [show a + 1 ≤ b from hlt, show a ≤ b from by omega, show ¬a = b from by omega, if_true,
        if_false]
    · subst heq
      rw [if_neg (by omega), if_pos rfl, if_pos (by omega)]
      simp
    · rw [if_neg (by omega), if_neg (by omega), if_neg (by omega)]

/-- A byte inside the written range is the list's. -/
theorem Memory.read_writesFrom_inside {m : Memory} (h : m.wf = true) (a : Nat) {bytes : List Byte}
    {k : Nat} (hk : k < bytes.length) : (m.perform (writesFrom a bytes)).read (a + k) = bytes[k] := by
  rw [Memory.read_writesFrom h, if_pos (by omega)]
  simp [hk]

/-- A byte outside the written range is the old one. -/
theorem Memory.read_writesFrom_outside {m : Memory} (h : m.wf = true) {a b : Nat}
    {bytes : List Byte} (hb : ¬(a ≤ b ∧ b < a + bytes.length)) :
    (m.perform (writesFrom a bytes)).read b = m.read b := by
  rw [Memory.read_writesFrom h]
  split
  · rw [List.getElem?_eq_none (by omega)]
    rfl
  · rfl

/-- A prefix of the writes of a byte list is the writes of a prefix of it
(70_reset_and_hazards.md R202). -/
theorem take_writesFrom (a k : Nat) (bytes : List Byte) :
    (writesFrom a bytes).take k = writesFrom a (bytes.take k) := by
  induction bytes generalizing a k with
  | nil => simp [writesFrom]
  | cons b rest ih =>
    cases k with
    | zero => rfl
    | succ k => simp [writesFrom, ih]

theorem take_readsFrom (a k count : Nat) :
    (readsFrom a count).take k = readsFrom a (min k count) := by
  induction count generalizing a k with
  | zero => simp [readsFrom]
  | succ n ih =>
    cases k with
    | zero => simp [readsFrom]
    | succ k =>
      have : min (k + 1) (n + 1) = min k n + 1 := by omega
      rw [this]
      simp [readsFrom, ih]

theorem Memory.within_writesFrom {n : Nat} {m : Memory} (h : m.within n = true) (a : Nat)
    (bytes : List Byte) (ha : a + bytes.length ≤ n) :
    (m.perform (writesFrom a bytes)).within n = true := by
  induction bytes generalizing m a with
  | nil => exact h
  | cons b rest ih =>
    simp only [List.length_cons] at ha
    exact ih (Memory.within_write b h (by omega)) (a + 1) (by omega)

/-! ## Packed registers -/

theorem getLsbD_bit (b : Bool) (i : Nat) : (bit b).getLsbD i = (decide (i = 0) && b) := by
  cases b <;> cases i <;> simp [bit]

/-- Bit `i` of the packed window registers (41_window.md R131). -/
theorem State.getLsbD_windowInfo (s : State) (i : Nat) :
    s.windowInfo.getLsbD i =
      if i < 16 then s.start.getLsbD i else if i < 32 then s.length.getLsbD (i - 16)
      else if i < 48 then s.cursor.getLsbD (i - 32) else if i = 48 then s.valid
      else decide (i = 49) && s.writable := by
  simp only [State.windowInfo, BitVec.getLsbD_or, BitVec.getLsbD_shiftLeft, BitVec.getLsbD_setWidth,
    getLsbD_bit]
  rcases Nat.lt_or_ge i 16 with h | h
  · simp [h, show i < 64 by omega, show i < 32 by omega, show i < 48 by omega, show i < 49 by omega]
  rw [BitVec.getLsbD_of_ge s.start i h]
  rcases Nat.lt_or_ge i 32 with h2 | h2
  · simp [h2, show ¬i < 16 by omega, show i < 64 by omega, show i - 16 < 64 by omega,
      show i < 48 by omega, show i < 49 by omega]
  rw [BitVec.getLsbD_of_ge s.length (i - 16) (by omega)]
  rcases Nat.lt_or_ge i 48 with h3 | h3
  · simp [h3, show ¬i < 16 by omega, show ¬i < 32 by omega, show i < 64 by omega,
      show i - 32 < 64 by omega, show i < 49 by omega]
  rw [BitVec.getLsbD_of_ge s.cursor (i - 32) (by omega)]
  rcases Nat.lt_trichotomy i 49 with h4 | h4 | h4
  · simp [show i = 48 by omega]
  · simp [h4]
  · simp [show ¬i < 16 by omega, show ¬i < 32 by omega, show ¬i < 48 by omega,
      show ¬i = 48 by omega, show ¬i = 49 by omega, show ¬i - 48 = 0 by omega,
      show ¬i - 49 = 0 by omega]

/-- Bit `i` of the packed fault registers (42_system.md R161). -/
theorem State.getLsbD_faultInfo (s : State) (i : Nat) :
    s.faultInfo.getLsbD i =
      if i < 32 then s.faultCmd.getLsbD i else if i < 40 then s.faultCause.getLsbD (i - 32)
      else decide (i = 40) && s.fault := by
  simp only [State.faultInfo, BitVec.getLsbD_or, BitVec.getLsbD_shiftLeft, BitVec.getLsbD_setWidth,
    getLsbD_bit]
  rcases Nat.lt_or_ge i 32 with h | h
  · simp [h, show i < 64 by omega, show i < 40 by omega]
  rw [BitVec.getLsbD_of_ge s.faultCmd i h]
  rcases Nat.lt_or_ge i 40 with h2 | h2
  · simp [h2, show ¬i < 32 by omega, show i < 64 by omega, show i - 32 < 64 by omega]
  rw [BitVec.getLsbD_of_ge s.faultCause (i - 32) (by omega)]
  by_cases h4 : i = 40
  · simp [h4]
  · simp [show ¬i < 32 by omega, show ¬i < 40 by omega, h4, show ¬i - 40 = 0 by omega]

/-! ## The run of a command -/

theorem runCommand_faulted (i : Instr) (check : State → Verdict) (effect : State → State) {s : State}
    (h : s.fault = true) :
    runCommand i check effect s = s.startCommand.finish .faulted [] := by
  simp [runCommand, h]

theorem runCommand_run {i : Instr} {check : State → Verdict} {effect : State → State} {s : State}
    (h : s.fault = false) (hc : check s.startCommand = .run) :
    runCommand i check effect s = effect s.startCommand := by
  simp [runCommand, h, hc]

theorem runCommand_fail {i : Instr} {check : State → Verdict} {effect : State → State} {s : State}
    {st : Status} (h : s.fault = false) (hc : check s.startCommand = .fail st) :
    runCommand i check effect s = s.startCommand.finish st [] := by
  simp [runCommand, h, hc]

theorem runCommand_raise {i : Instr} {check : State → Verdict} {effect : State → State} {s : State}
    {c : FaultCause} (h : s.fault = false) (hc : check s.startCommand = .raise c) :
    runCommand i check effect s = s.startCommand.raiseFault c i := by
  simp [runCommand, h, hc]

/-- Everything a command can do. -/
theorem runCommand_cases (i : Instr) (check : State → Verdict) (effect : State → State) (s : State) :
    (s.fault = true ∧ runCommand i check effect s = s.startCommand.finish .faulted []) ∨
    (s.fault = false ∧ check s.startCommand = .run ∧
      runCommand i check effect s = effect s.startCommand) ∨
    (∃ st, s.fault = false ∧ check s.startCommand = .fail st ∧
      runCommand i check effect s = s.startCommand.finish st []) ∨
    (∃ c, s.fault = false ∧ check s.startCommand = .raise c ∧
      runCommand i check effect s = s.startCommand.raiseFault c i) := by
  cases hf : s.fault with
  | true => exact .inl ⟨rfl, runCommand_faulted i check effect hf⟩
  | false =>
    cases hc : check s.startCommand with
    | run => exact .inr (.inl ⟨rfl, rfl, runCommand_run hf hc⟩)
    | fail st => exact .inr (.inr (.inl ⟨st, rfl, rfl, runCommand_fail hf hc⟩))
    | raise c => exact .inr (.inr (.inr ⟨c, rfl, rfl, runCommand_raise hf hc⟩))

/-! ## The checks -/

@[simp] theorem State.exhausted_startCommand (s : State) (count : Nat) :
    s.startCommand.exhausted count = s.exhausted count := rfl

@[simp] theorem State.pastDevice_startCommand (s : State) (count : Nat) :
    s.startCommand.pastDevice count = s.pastDevice count := rfl

@[simp] theorem State.base_startCommand (s : State) : s.startCommand.base = s.base := rfl

@[simp] theorem State.byteAt_startCommand (s : State) (a : Nat) :
    s.startCommand.byteAt a = s.byteAt a := rfl

/-- When a transfer is too long for the window, as integers (41_window.md R127). -/
theorem State.exhausted_iff {s : State} {count : Nat} :
    s.exhausted count = true ↔ s.length.toNat < s.cursor.toNat + count := decide_eq_true_iff

/-- When a transfer fits in the window, as integers (41_window.md R127). -/
theorem State.not_exhausted_iff {s : State} {count : Nat} :
    s.exhausted count = false ↔ s.cursor.toNat + count ≤ s.length.toNat :=
  decide_eq_false_iff_not.trans Nat.not_lt

/-- When a transfer passes the device's end (20_memory.md R60). -/
theorem State.pastDevice_iff {s : State} {count : Nat} :
    s.pastDevice count = true ↔
      1 ≤ count ∧ s.cfg.devN ≤ s.start.toNat + s.cursor.toNat + count - 1 := by
  rw [State.pastDevice, Bool.and_eq_true, decide_eq_true_iff, decide_eq_true_iff]
  rfl

/-- When a transfer stays on the device (20_memory.md R60). -/
theorem State.not_pastDevice_iff {s : State} {count : Nat} :
    s.pastDevice count = false ↔
      (1 ≤ count → s.start.toNat + s.cursor.toNat + count - 1 < s.cfg.devN) := by
  rw [← Bool.not_eq_true, State.pastDevice_iff]
  omega

/-- When a window may be opened (41_window.md R121). -/
theorem windowFits_iff {start len : Half} :
    windowFits start len = true ↔ start.toNat ≤ 65534 ∧ start.toNat + len.toNat ≤ 65534 := by
  rw [windowFits, Bool.and_eq_true, decide_eq_true_iff, decide_eq_true_iff]
  rfl

/-- When a read transfer passes its checks. -/
theorem readCheck_run {s : State} {count : Nat} :
    readCheck count s = .run ↔
      s.valid = true ∧ s.exhausted count = false ∧ s.pastDevice count = false := by
  simp only [readCheck, windowCheck, roomCheck]
  cases s.valid <;> cases s.exhausted count <;> cases s.pastDevice count <;> simp

/-- When a write transfer passes its checks. -/
theorem writeCheck_run {s : State} {count : Nat} :
    writeCheck count s = .run ↔ s.valid = true ∧ s.writable = true ∧
      s.exhausted count = false ∧ s.pastDevice count = false := by
  simp only [writeCheck, windowCheck, roomCheck]
  cases s.valid <;> cases s.writable <;> cases s.exhausted count <;> cases s.pastDevice count <;> simp

/-- When a read transfer raises a fault, and which (60_exceptions.md R173). -/
theorem readCheck_raise {s : State} {count : Nat} {c : FaultCause}
    (h : readCheck count s = .raise c) :
    c = .devRange ∧ s.valid = true ∧ s.exhausted count = false ∧ s.pastDevice count = true := by
  revert h
  simp only [readCheck, windowCheck, roomCheck]
  cases s.valid <;> cases s.exhausted count <;> cases s.pastDevice count <;> simp
  exact fun h => h.symm

/-- When a write transfer raises a fault, and which (60_exceptions.md R173). -/
theorem writeCheck_raise {s : State} {count : Nat} {c : FaultCause}
    (h : writeCheck count s = .raise c) :
    c = .devRange ∧ s.valid = true ∧ s.writable = true ∧ s.exhausted count = false ∧
      s.pastDevice count = true := by
  revert h
  simp only [writeCheck, windowCheck, roomCheck]
  cases s.valid <;> cases s.writable <;> cases s.exhausted count <;> cases s.pastDevice count <;> simp
  exact fun h => h.symm

end Sys2Proof.Machine
end

