-- ==== Sys2Proof/Laws/Exec.lean ====
section
/-! SUPPORT. What a command can do, said once: every command but `blk.fstat` is the run of its checks
and then its effect, and every effect is described by what it leaves in each field. -/

namespace Sys2Proof.Machine

/-- The checks of a command (60_exceptions.md R178, step 3). -/
def checkOf (i : Instr) : State → Verdict :=
  match i with
  | .winOpenR start len => openCheck start len
  | .winOpenRw start len => openCheck start len
  | .winSeek c => seekCheck c
  | .winTell => windowCheck noCheck
  | .winAvail => windowCheck noCheck
  | .winRd w => readCheck w.bytes
  | .winWr w _ => writeCheck w.bytes
  | .winRdb k => readCheck k.toNat
  | .winWrb bytes => writeCheck bytes.length
  | .nop | .crcInit | .crcApp _ | .crcVal | .crcAcc | .crcLd _ | .winClose | .winInfo
  | .blkFstat => noCheck

/-- The effect of a command that passes its checks. -/
def effectOf (i : Instr) (s : State) : State :=
  match i with
  | .nop => s.finishOk
  | .crcInit => (s.setAcc crcInitial).finishOk
  | .crcApp b => (s.setAcc (appendByte s.acc b)).finishOk
  | .crcVal => (s.setRdata (s.value.setWidth 64)).finishOk
  | .crcAcc => (s.setRdata (s.acc.setWidth 64)).finishOk
  | .crcLd v => (s.setAcc v).finishOk
  | .winOpenR start len => (s.openWindow false start len).finishOk
  | .winOpenRw start len => (s.openWindow true start len).finishOk
  | .winClose => s.closeWindow.finishOk
  | .winSeek c => (s.setCursor c).finishOk
  | .winTell => (s.setRdata (s.cursor.setWidth 64)).finishOk
  | .winAvail => (s.setRdata (s.available.setWidth 64)).finishOk
  | .winRd w =>
    (((s.memRead s.base w.bytes).2.setRdata (s.memRead s.base w.bytes).1).advance w.bytes).finishOk
  | .winWr w v => ((s.memWrite s.base w.bytes v).advance w.bytes).finishOk
  | .winRdb k =>
    ((s.readBytes s.base k.toNat).2.advance k.toNat).finish .ok (s.readBytes s.base k.toNat).1
  | .winWrb bytes => ((s.writeBytes s.base bytes).advance bytes.length).finishOk
  | .winInfo => (s.setRdata s.windowInfo).finishOk
  | .blkFstat => (s.setRdata s.faultInfo).finishOk

/-- No check looks at the device port's record. -/
@[simp] theorem checkOf_startCommand (i : Instr) (s : State) :
    checkOf i s.startCommand = checkOf i s := by
  cases i <;> rfl

/-- Every command but `blk.fstat` is the run of its checks and then its effect. -/
theorem exec_eq_runCommand {i : Instr} (h : i ≠ .blkFstat) (s : State) :
    exec i s = .next (runCommand i (checkOf i) (effectOf i) s) := by
  cases i <;> first | rfl | exact absurd rfl h

/-- `blk.fstat` is its effect, faulted or not (60_exceptions.md R175). -/
theorem exec_blkFstat (s : State) :
    exec .blkFstat s = .next (effectOf .blkFstat s.startCommand) := rfl

/-- Everything a command can do: nothing while faulted, or its effect, or a failure status, or a
fault. -/
theorem exec_cases (i : Instr) (s : State) :
    (s.fault = true ∧ i ≠ .blkFstat ∧ exec i s = .next (s.startCommand.finish .faulted [])) ∨
    ((i = .blkFstat ∨ s.fault = false) ∧ checkOf i s = .run ∧
      exec i s = .next (effectOf i s.startCommand)) ∨
    (∃ st, s.fault = false ∧ checkOf i s = .fail st ∧
      exec i s = .next (s.startCommand.finish st [])) ∨
    (∃ c, s.fault = false ∧ checkOf i s = .raise c ∧
      exec i s = .next (s.startCommand.raiseFault c i)) := by
  by_cases hi : i = .blkFstat
  · subst hi
    exact .inr (.inl ⟨.inl rfl, rfl, exec_blkFstat s⟩)
  · rw [exec_eq_runCommand hi]
    rcases runCommand_cases i (checkOf i) (effectOf i) s with
      ⟨hf, h⟩ | ⟨hf, hc, h⟩ | ⟨st, hf, hc, h⟩ | ⟨c, hf, hc, h⟩ <;>
      try rw [checkOf_startCommand] at hc
    · exact .inl ⟨hf, hi, by rw [h]⟩
    · exact .inr (.inl ⟨.inr hf, hc, by rw [h]⟩)
    · exact .inr (.inr (.inl ⟨st, hf, hc, by rw [h]⟩))
    · exact .inr (.inr (.inr ⟨c, hf, hc, by rw [h]⟩))

/-- A command never stops the machine. -/
theorem exec_next (i : Instr) (s : State) : ∃ t, exec i s = .next t := by
  rcases exec_cases i s with ⟨_, _, h⟩ | ⟨_, _, h⟩ | ⟨_, _, _, h⟩ | ⟨_, _, _, h⟩ <;> exact ⟨_, h⟩

/-- A command in an unfaulted block that passes its checks. -/
theorem exec_run {i : Instr} {s : State} (hf : s.fault = false)
    (hc : checkOf i s = .run) : exec i s = .next (effectOf i s.startCommand) := by
  by_cases hi : i = .blkFstat
  · subst hi
    exact exec_blkFstat s
  · rw [exec_eq_runCommand hi, runCommand_run hf (by rwa [checkOf_startCommand])]

/-- A command in an unfaulted block whose checks end it with a status. -/
theorem exec_fail {i : Instr} {s : State} {st : Status} (hf : s.fault = false)
    (hc : checkOf i s = .fail st) :
    exec i s = .next (s.startCommand.finish st []) := by
  have hi : i ≠ .blkFstat := by
    rintro rfl
    cases hc
  rw [exec_eq_runCommand hi, runCommand_fail hf (by rwa [checkOf_startCommand])]

/-- A command in an unfaulted block whose checks raise a fault. -/
theorem exec_raise {i : Instr} {s : State} {c : FaultCause} (hf : s.fault = false)
    (hc : checkOf i s = .raise c) :
    exec i s = .next (s.startCommand.raiseFault c i) := by
  have hi : i ≠ .blkFstat := by
    rintro rfl
    cases hc
  rw [exec_eq_runCommand hi, runCommand_raise hf (by rwa [checkOf_startCommand])]

/-- A command in a faulted block. -/
theorem exec_faulted {i : Instr} {s : State} (hi : i ≠ .blkFstat) (hf : s.fault = true) :
    exec i s = .next (s.startCommand.finish .faulted []) := by
  rw [exec_eq_runCommand hi, runCommand_faulted _ _ _ hf]

/-- Which commands can raise a fault, and which fault (60_exceptions.md R173). -/
theorem checkOf_raise {i : Instr} {s : State} {c : FaultCause} (h : checkOf i s = .raise c) :
    (c = .winBounds ∧ (opField i.cmd = 0x10 ∨ opField i.cmd = 0x11)) ∨
    (c = .devRange ∧ (opField i.cmd = 0x16 ∨ opField i.cmd = 0x17 ∨ opField i.cmd = 0x18 ∨
      opField i.cmd = 0x19)) := by
  cases i with
  | winOpenR a l =>
    simp only [checkOf, openCheck] at h
    split at h <;> cases h
    exact .inl ⟨rfl, .inl (by simp [Instr.cmd])⟩
  | winOpenRw a l =>
    simp only [checkOf, openCheck] at h
    split at h <;> cases h
    exact .inl ⟨rfl, .inr (by simp [Instr.cmd])⟩
  | winSeek c =>
    simp only [checkOf, seekCheck, windowCheck] at h
    split at h
    · split at h <;> cases h
    · cases h
  | winTell =>
    simp only [checkOf, windowCheck] at h
    split at h <;> cases h
  | winAvail =>
    simp only [checkOf, windowCheck] at h
    split at h <;> cases h
  | winRd w => exact .inr ⟨(readCheck_raise h).1, .inl (by simp [Instr.cmd])⟩
  | winWr w v => exact .inr ⟨(writeCheck_raise h).1, .inr (.inl (by simp [Instr.cmd]))⟩
  | winRdb k => exact .inr ⟨(readCheck_raise h).1, .inr (.inr (.inl (by simp [Instr.cmd])))⟩
  | winWrb bs => exact .inr ⟨(writeCheck_raise h).1, .inr (.inr (.inr (by simp [Instr.cmd])))⟩
  | _ => cases h

/-! ## What an effect leaves in each field -/

/-- The device accesses of a command that has its effect, in the order made (20_memory.md R55, R56). -/
def accessesOf (i : Instr) (s : State) : List Access :=
  match i with
  | .winRd w => readsFrom s.base w.bytes
  | .winWr w v => writesFrom s.base (bytesOf w.bytes v)
  | .winRdb k => readsFrom s.base k.toNat
  | .winWrb bytes => writesFrom s.base bytes
  | .nop | .crcInit | .crcApp _ | .crcVal | .crcAcc | .crcLd _ | .winOpenR _ _ | .winOpenRw _ _
  | .winClose | .winSeek _ | .winTell | .winAvail | .winInfo | .blkFstat => []

/-- An effect never enters or leaves the faulted state. -/
@[simp] theorem effectOf_fault (i : Instr) (s : State) : (effectOf i s).fault = s.fault := by
  cases i <;> simp [effectOf, State.memRead, State.memWrite, State.readBytes_state,
    State.writeBytes_state]

@[simp] theorem effectOf_faultCause (i : Instr) (s : State) : (effectOf i s).faultCause = s.faultCause := by
  cases i <;> simp [effectOf, State.memRead, State.memWrite, State.readBytes_state,
    State.writeBytes_state]

@[simp] theorem effectOf_faultCmd (i : Instr) (s : State) : (effectOf i s).faultCmd = s.faultCmd := by
  cases i <;> simp [effectOf, State.memRead, State.memWrite, State.readBytes_state,
    State.writeBytes_state]

/-- No effect changes the parameters (70_reset_and_hazards.md R204). -/
@[simp] theorem effectOf_cfg (i : Instr) (s : State) : (effectOf i s).cfg = s.cfg := by
  cases i <;> simp [effectOf, State.memRead, State.memWrite, State.readBytes_state,
    State.writeBytes_state]

@[simp] theorem effectOf_inputs (i : Instr) (s : State) : (effectOf i s).inputs = s.inputs := by
  cases i <;> simp [effectOf, State.memRead, State.memWrite, State.readBytes_state,
    State.writeBytes_state]

/-- A command that has its effect ends OK. -/
@[simp] theorem effectOf_status (i : Instr) (s : State) : (effectOf i s).status = 0 := by
  cases i <;> rfl

/-- The accesses of an effect come after those already made. -/
theorem effectOf_accesses (i : Instr) (s : State) :
    (effectOf i s).accesses = s.accesses ++ accessesOf i s := by
  cases i <;> simp [accessesOf, effectOf, State.memRead, State.memWrite, State.readBytes_state,
    State.writeBytes_state]

/-- An effect leaves the device as its own accesses do (20_memory.md R61). -/
theorem effectOf_device (i : Instr) (s : State) :
    (effectOf i s).device = s.device.perform (accessesOf i s) := by
  cases i <;> simp [accessesOf, Memory.perform, Memory.perform_readsFrom, effectOf, State.memRead, State.memWrite, State.readBytes_state,
    State.writeBytes_state]

/-- The response of an effect carries the registers, and bytes for `win.rdb` alone
(30_encoding.md R80). -/
theorem effectOf_response (i : Instr) (s : State) :
    (effectOf i s).response = some
      { status := 0
        rdata := (effectOf i s).rdata
        rbytes := match i with
          | .winRdb k => (s.readBytes s.base k.toNat).1
          | _ => [] } := by
  cases i <;> rfl

/-- An effect writes `RDATA` only for a command that returns data (10_state.md R27). -/
theorem effectOf_rdata {i : Instr} (h : i.returnsData = false) (s : State) :
    (effectOf i s).rdata = s.rdata := by
  cases i <;> try cases h
  all_goals simp [effectOf, State.memWrite, State.readBytes_state, State.writeBytes_state]

/-- A transfer's accesses are at the addresses from the cursor on, one a byte (20_memory.md R54). -/
theorem accessesOf_addr {i : Instr} (s : State) :
    (accessesOf i s).map Access.addr = (List.range i.count).map fun k => s.base + k := by
  have hr (a n : Nat) : (readsFrom a n).map Access.addr = (List.range n).map fun k => a + k := by
    rw [readsFrom_eq_map, List.map_map]
    rfl
  have hw (a : Nat) (bytes : List Byte) :
      (writesFrom a bytes).map Access.addr = (List.range bytes.length).map fun k => a + k := by
    rw [writesFrom_eq_mapIdx]
    apply List.ext_getElem?
    intro j
    rcases Nat.lt_or_ge j bytes.length with h | h <;> simp [h, Access.addr]
  cases i with
  | winRd w => exact hr _ _
  | winWr w v => rw [accessesOf, hw, length_bytesOf]; rfl
  | winRdb k => exact hr _ _
  | winWrb bytes => exact hw _ _
  | _ => rfl

/-- When a transfer passes its checks, its bytes lie in the window and on the device. -/
theorem checkOf_run_transfer {i : Instr} {s : State} (ht : i.isTransfer = true)
    (h : checkOf i s = .run) : s.valid = true ∧ (i.isWrite = true → s.writable = true) ∧
      s.exhausted i.count = false ∧ s.pastDevice i.count = false := by
  cases i with
  | winRd w =>
    obtain ⟨h1, h2, h3⟩ := readCheck_run.1 h
    exact ⟨h1, (fun hw => by cases hw), h2, h3⟩
  | winWr w v =>
    obtain ⟨h1, h2, h3, h4⟩ := writeCheck_run.1 h
    exact ⟨h1, fun _ => h2, h3, h4⟩
  | winRdb k =>
    obtain ⟨h1, h2, h3⟩ := readCheck_run.1 h
    exact ⟨h1, (fun hw => by cases hw), h2, h3⟩
  | winWrb bytes =>
    obtain ⟨h1, h2, h3, h4⟩ := writeCheck_run.1 h
    exact ⟨h1, fun _ => h2, h3, h4⟩
  | _ => cases ht

/-- A command that is no transfer makes no access (70_reset_and_hazards.md R211). -/
theorem accessesOf_of_not_transfer {i : Instr} (h : i.isTransfer = false) (s : State) :
    accessesOf i s = [] := by
  cases i <;> first | rfl | cases h

/-- A command that is no write writes no byte of the device. -/
theorem perform_accessesOf_of_not_write {i : Instr} (h : i.isWrite = false) (s : State)
    (m : Memory) : m.perform (accessesOf i s) = m := by
  cases i <;> first | rfl | exact Memory.perform_readsFrom m _ _ | cases h

end Sys2Proof.Machine
end

