-- ==== Sys2Proof/Laws/PerInstr.lean ====
section
/-! SUPPORT. What holds of every command as syntax, one lemma per constructor.
`EncodedWordInRow`: the word of a command selects its row of the opcode map (30_encoding.md R83). -/

namespace Sys2Proof.Laws.EncodedWordInRow

/-- The word of the command selects the command's row of the opcode map (30_encoding.md R83). -/
def Statement (i : Instr) : Prop := i.row.selects i.cmd = true

/-- A word whose fields are given, masked field by field. -/
theorem cmdWord_and (a a' : Half) (n n' op op' : BitVec 8) :
    cmdWord a n op &&& cmdWord a' n' op' = cmdWord (a &&& a') (n &&& n') (op &&& op') := by
  apply BitVec.eq_of_getLsbD_eq
  intro i _
  simp only [BitVec.getLsbD_and, getLsbD_cmdWord]
  split
  · rfl
  · split
    · rfl
    · cases decide (i < 32) <;> simp

/-- A row's test, field by field: the reserved bits of `a` and `n` are 0. -/
theorem selects_of_fields {a a' : Half} {n n' op : BitVec 8} {r : OpRow}
    (hr : r = ⟨cmdWord 0 0 op, cmdWord a' n' 0xFF⟩) (ha : a &&& a' = 0) (hn : n &&& n' = 0) :
    r.selects (cmdWord a n op) = true := by
  have hop : op &&& 0xFF = op := BitVec.and_allOnes
  rw [hr, OpRow.selects, cmdWord_and, ha, hn, hop]
  exact beq_self_eq_true _

/-- A row whose `a` is an operand and whose `n` is reserved. -/
theorem selects_a {a : Half} {op : BitVec 8} {r : OpRow} (hr : r = ⟨cmdWord 0 0 op, 0x0000FFFF⟩) :
    r.selects (cmdWord a 0 op) = true :=
  selects_of_fields (a' := 0) (n' := 0xFF) hr BitVec.and_zero (by decide)

/-- A row whose `n` is an operand and whose `a` is reserved. -/
theorem selects_n {n op : BitVec 8} {r : OpRow} (hr : r = ⟨cmdWord 0 0 op, 0xFFFF00FF⟩) :
    r.selects (cmdWord 0 n op) = true :=
  selects_of_fields (a' := 0xFFFF) (n' := 0) hr (by decide) BitVec.and_zero

/-- A row with no operand in the word. -/
theorem selects_plain {op : BitVec 8} {r : OpRow} (hr : r = ⟨cmdWord 0 0 op, 0xFFFFFFFF⟩) :
    r.selects (cmdWord 0 0 op) = true :=
  selects_of_fields (a' := 0xFFFF) (n' := 0xFF) hr (by decide) (by decide)

/-- The upper byte of `a` is 0 in the word of `crc.app`. -/
theorem byte_and_upper (b : Byte) : b.setWidth 16 &&& 0xFF00#16 = 0#16 := by
  revert b
  decide

theorem nop : Statement .nop := selects_plain rfl
theorem crcInit : Statement .crcInit := selects_plain rfl
theorem crcApp (b : Byte) : Statement (.crcApp b) :=
  selects_of_fields (a' := 0xFF00) (n' := 0xFF) rfl (byte_and_upper b) (by decide)
theorem crcVal : Statement .crcVal := selects_plain rfl
theorem crcAcc : Statement .crcAcc := selects_plain rfl
theorem crcLd (v : Word) : Statement (.crcLd v) := selects_plain rfl
theorem winOpenR (start len : Half) : Statement (.winOpenR start len) := selects_a rfl
theorem winOpenRw (start len : Half) : Statement (.winOpenRw start len) := selects_a rfl
theorem winClose : Statement .winClose := selects_plain rfl
theorem winSeek (c : Half) : Statement (.winSeek c) := selects_a rfl
theorem winTell : Statement .winTell := selects_plain rfl
theorem winAvail : Statement .winAvail := selects_plain rfl
theorem winRd (w : Width) : Statement (.winRd w) := selects_n rfl
theorem winWr (w : Width) (v : Data) : Statement (.winWr w v) := selects_n rfl
theorem winRdb (k : Half) : Statement (.winRdb k) := selects_a rfl
theorem winWrb (bytes : List Byte) : Statement (.winWrb bytes) := selects_a rfl
theorem winInfo : Statement .winInfo := selects_plain rfl
theorem blkFstat : Statement .blkFstat := selects_plain rfl

end Sys2Proof.Laws.EncodedWordInRow
end

