-- ==== Sys2Proof/Laws/Port.lean ====
section
/-! SUPPORT. What a transaction, an interrupted one and a host write can do, said once; and how a run of
the machine goes through the commands the host issued. -/

namespace Sys2Proof.Machine

/-- Everything a transaction can do: what its command does, or, undefined, end with a status. -/
theorem transact_cases (tx : Transaction) (s : State) :
    (∃ i, decode tx = .ok i ∧ transact tx s = exec i s) ∨
    (∃ e, decode tx = .error e ∧
      transact tx s = .next (s.startCommand.finish (if s.fault then .faulted else .illegal) [])) := by
  unfold transact
  cases h : decode tx with
  | ok i => exact .inl ⟨i, rfl, rfl⟩
  | error e => exact .inr ⟨e, rfl, rfl⟩

/-- A transaction never stops the machine. -/
theorem transact_next (tx : Transaction) (s : State) : ∃ t, transact tx s = .next t := by
  rcases transact_cases tx s with ⟨i, _, h⟩ | ⟨e, _, h⟩
  · rw [h]
    exact exec_next i s
  · exact ⟨_, h⟩

/-- A status or a fault ends a command without a device access. -/
theorem exec_accesses {i : Instr} {s t : State} (h : exec i s = .next t) :
    t.accesses = [] ∨ (t.accesses = accessesOf i s ∧ checkOf i s = .run) := by
  rcases exec_cases i s with ⟨_, _, h'⟩ | ⟨_, hc, h'⟩ | ⟨_, _, _, h'⟩ | ⟨_, _, _, h'⟩
  all_goals
    rw [h'] at h
    cases h
  · exact .inl rfl
  · refine .inr ⟨?_, hc⟩
    rw [effectOf_accesses]
    cases i <;> rfl
  · exact .inl rfl
  · exact .inl rfl

/-- The accesses of a command are all reads or all writes, from one address on. -/
theorem accessesOf_shape (i : Instr) (s : State) :
    (∃ n, accessesOf i s = readsFrom s.base n) ∨
      (i.isWrite = true ∧ ∃ bytes, accessesOf i s = writesFrom s.base bytes) := by
  cases i with
  | winRd w => exact .inl ⟨_, rfl⟩
  | winRdb k => exact .inl ⟨_, rfl⟩
  | winWr w v => exact .inr ⟨rfl, _, rfl⟩
  | winWrb bytes => exact .inr ⟨rfl, _, rfl⟩
  | _ => exact .inl ⟨0, rfl⟩

theorem exec_cfg {i : Instr} {s t : State} (h : exec i s = .next t) :
    t.cfg = s.cfg ∧ t.inputs = s.inputs := by
  rcases exec_cases i s with ⟨_, _, h'⟩ | ⟨_, _, h'⟩ | ⟨_, _, _, h'⟩ | ⟨_, _, _, h'⟩
  all_goals
    rw [h'] at h
    cases h
    simp

/-- A transaction changes neither the parameters nor the inputs that wait. -/
theorem transact_cfg {tx : Transaction} {s t : State} (h : transact tx s = .next t) :
    t.cfg = s.cfg ∧ t.inputs = s.inputs := by
  rcases transact_cases tx s with ⟨i, _, h'⟩ | ⟨e, _, h'⟩
  · exact exec_cfg (h' ▸ h)
  · rw [h'] at h
    cases h
    exact ⟨rfl, rfl⟩

/-- Everything an interrupted transaction can do: the accesses of the uninterrupted one that the cut
keeps, and the reset of the block. -/
theorem interrupt_eq {tx : Transaction} {s u : State} (h : transact tx s = .next u)
    (cut : List Access → List Access) :
    interrupt tx cut s = .next
      { ({ s with device := s.device.perform (cut u.accesses) } : State).resetBlock with
        accesses := cut u.accesses } := by
  rw [interrupt, h]

/-- Both cuts keep the first accesses: a reset keeps none or all (10_state.md R32). -/
theorem resetCut_eq_take (transferred : Bool) (xs : List Access) :
    ∃ done, resetCut transferred xs = xs.take done := by
  cases transferred with
  | false => exact ⟨0, rfl⟩
  | true => exact ⟨xs.length, List.take_length.symm⟩

/-- A reset keeps a whole transfer or none of it. -/
theorem perform_resetCut (m : Memory) (transferred : Bool) (xs : List Access) :
    m.perform (resetCut transferred xs) = if transferred then m.perform xs else m := by
  cases transferred <;> rfl

/-- A host write to a byte of the device. -/
theorem hostWrite_inside {a : Half} {s : State} (h : a.toNat < s.cfg.devN) (v : Byte) :
    hostWrite a v s = .next { s with device := s.device.write a.toNat v } := if_pos h

/-- A host write past the device. -/
theorem hostWrite_outside {a : Half} {s : State} (h : s.cfg.devN ≤ a.toNat) (v : Byte) :
    hostWrite a v s = .fault .hostWriteOutOfRange := if_neg (Nat.not_lt.2 h)

/-! ## Steps and runs -/

theorem step_cons {s : State} {x : Input} {rest : List Input} (h : s.inputs = x :: rest) :
    step s = takeInput x { s with inputs := rest } := by
  unfold step
  rw [h]

/-- Everything a step can do. -/
theorem step_cases (s : State) :
    (s.inputs = [] ∧ step s = .next s) ∨
    (∃ tx rest, s.inputs = .command tx :: rest ∧ step s = transact tx { s with inputs := rest }) ∨
    (∃ x rest, s.inputs = x :: rest ∧ (x = .reset ∨ x = .powerLoss) ∧
      step s = .next ({ s with inputs := rest } : State).resetBlock) ∨
    (∃ x tx cut rest u, s.inputs = x :: rest ∧
      ((∃ done, x = .powerLossDuring tx done ∧ cut = powerLossCut done) ∨
        (∃ transferred, x = .resetDuring tx transferred ∧ cut = resetCut transferred)) ∧
      transact tx { s with inputs := rest } = .next u ∧
      step s = .next { ({ s with
          device := s.device.perform (cut u.accesses), inputs := rest } : State).resetBlock with
        accesses := cut u.accesses }) ∨
    (∃ a v rest, s.inputs = .hostWrite a v :: rest ∧ a.toNat < s.cfg.devN ∧
      step s = .next { s with device := s.device.write a.toNat v, inputs := rest }) ∨
    (∃ a v rest, s.inputs = .hostWrite a v :: rest ∧ s.cfg.devN ≤ a.toNat ∧
      step s = .fault .hostWriteOutOfRange) := by
  cases hs : s.inputs with
  | nil =>
    refine .inl ⟨rfl, ?_⟩
    unfold step
    rw [hs]
  | cons x rest =>
    rw [step_cons hs]
    cases x with
    | command tx => exact .inr (.inl ⟨tx, rest, rfl, rfl⟩)
    | reset => exact .inr (.inr (.inl ⟨_, rest, rfl, .inl rfl, rfl⟩))
    | powerLoss => exact .inr (.inr (.inl ⟨_, rest, rfl, .inr rfl, rfl⟩))
    | resetDuring tx transferred =>
      obtain ⟨u, hu⟩ := transact_next tx { s with inputs := rest }
      exact .inr (.inr (.inr (.inl ⟨_, tx, _, rest, u, rfl, .inr ⟨transferred, rfl, rfl⟩, hu,
        interrupt_eq hu _⟩)))
    | powerLossDuring tx done =>
      obtain ⟨u, hu⟩ := transact_next tx { s with inputs := rest }
      exact .inr (.inr (.inr (.inl ⟨_, tx, _, rest, u, rfl, .inl ⟨done, rfl, rfl⟩, hu,
        interrupt_eq hu _⟩)))
    | hostWrite a v =>
      rcases Nat.lt_or_ge a.toNat s.cfg.devN with h | h
      · exact .inr (.inr (.inr (.inr (.inl ⟨a, v, rest, rfl, h,
          hostWrite_inside (s := { s with inputs := rest }) h v⟩))))
      · exact .inr (.inr (.inr (.inr (.inr ⟨a, v, rest, rfl, h,
          hostWrite_outside (s := { s with inputs := rest }) h v⟩))))

/-- A run takes the first step and goes on. -/
theorem runSteps_succ {s t : State} (h : step s = .next t) (k : Nat) :
    runSteps (k + 1) s = runSteps k t := by
  rw [runSteps, h]

/-- A run takes the first command the host issued and goes on, when its transaction decodes to it. -/
theorem runSteps_issued {s t : State} {i : Instr} {rest : List Input}
    (hs : s.inputs = .command (encode i) :: rest) (hd : decode (encode i) = .ok i)
    (he : exec i { s with inputs := rest } = .next t) (k : Nat) :
    runSteps (k + 1) s = runSteps k t := by
  apply runSteps_succ
  rw [step_cons hs, takeInput, transact, hd]
  exact he

theorem run_succ (M : Host.Core) {s t : M.State} (h : M.step s = .next t) (k : Nat) :
    M.run (k + 1) s = M.run k t := by
  rw [Host.Core.run, h]

/-- The steps are those of the host's interface. -/
theorem runSteps_eq_run {k : Nat} {s t : State} (h : runSteps k s = .next t) :
    Host.Core.run core k s = .next t := by
  induction k generalizing s with
  | zero => exact h
  | succ k ih =>
    rw [runSteps] at h
    split at h
    · next u hu =>
      have h' : core.step s = .next u := hu
      exact (run_succ core h' k).trans (ih h)
    · cases h
    · cases h

end Sys2Proof.Machine
end

