-- ==== Sys2Proof/Tests/Slice0.lean ====
section
/-! SUPPORT. The model's own tests. Expected values come from the worked encodings (30_encoding.md R91),
the vectors and programs of 95_test_vectors.md and the examples of the rules; then, for every statement
with hypotheses, a state that meets them. -/

namespace Sys2Proof.Tests

open Sys2Proof Sys2Proof.Machine

/-! ## Small states -/

/-- After reset, with the window `[start, start + length)` open and its cursor at `cursor`. -/
def windowed (canWrite : Bool) (start length cursor : Half) : State :=
  { State.reset with
    valid := true, writable := canWrite, start := start, length := length, cursor := cursor }

/-- The faulted state after step 1 of program P4. -/
def faultedP4 : State :=
  { State.reset with fault := true, faultCause := 1, faultCmd := 0xFDE80010, status := 6 }

/-- The device of program P5: bytes 60..63 are A1 B2 C3 D4. -/
def deviceP5 : Memory := [(60, 0xA1), (61, 0xB2), (62, 0xC3), (63, 0xD4)]

/-- Does the command end in a next state with the property? -/
def after (i : Instr) (s : State) (p : State → Bool) : Bool :=
  match exec i s with
  | .next t => p t
  | .fault _ => false
  | .refused _ => false

/-- Does one step with this input end in a next state with the property? -/
def afterInput (x : Input) (s : State) (p : State → Bool) : Bool :=
  match step (s.withInput x) with
  | .next t => p t
  | .fault _ => false
  | .refused _ => false

/-! ## WellFormed refuses -/

theorem test_width_refuses_large_values :
    Width.w1.holds 0x100 = false ∧ Width.w2.holds 0x10000 = false ∧
    Width.w4.holds 0x100000000 = false ∧ Width.w8.holds 0xFFFFFFFFFFFFFFFF = true := by decide

theorem test_wellFormed_refuses_wide_write_value :
    (Instr.winWr .w1 0x100).wellFormed = false ∧ (Instr.winWr .w1 0xFF).wellFormed = true := by decide

theorem test_wellFormed_refuses_long_byte_list :
    (Instr.winWrb (List.replicate 65536 0)).wellFormed = false := by
  rw [← Bool.not_eq_true, Instr.wellFormed_winWrb, List.length_replicate]
  omega

theorem test_transaction_refuses_long_byte_list :
    (Transaction.mk 0x00000000 0 (List.replicate 65536 0)).wellFormed = false := by
  rw [← Bool.not_eq_true, Transaction.wellFormed_iff, List.length_replicate]
  omega

theorem test_config_refuses_large_device :
    ¬ Config.wf ⟨true, 65535⟩ ∧ Config.wf ⟨true, 65534⟩ := by decide

theorem test_memory_refuses_noncanonical_lists :
    Memory.wf [(3, 1), (3, 2)] = false ∧ Memory.wf [(4, 1), (3, 2)] = false ∧
    Memory.wf [(3, 0)] = false ∧ Memory.wf [(3, 1), (4, 2)] = true := by decide

/-! ## Words written out bit by bit from the patterns of R83 -/

theorem test_decode_block_words :
    decode ⟨0b00000000000000000000000000000000, 7, []⟩ = .ok .nop ∧
    decode ⟨0b00000000000000000000000000110000, 7, []⟩ = .ok .blkFstat := by decide

theorem test_decode_crc_words :
    decode ⟨0b00000000000000000000000000000001, 0, []⟩ = .ok .crcInit ∧
    decode ⟨0b00000000101001010000000000000010, 0, []⟩ = .ok (.crcApp 0xA5) ∧
    decode ⟨0b00000000000000000000000000000011, 0, []⟩ = .ok .crcVal ∧
    decode ⟨0b00000000000000000000000000000100, 0, []⟩ = .ok .crcAcc ∧
    decode ⟨0b00000000000000000000000000000101, 0xDEADBEEF12345678, []⟩ =
      .ok (.crcLd 0x12345678) := by decide

theorem test_decode_window_words :
    decode ⟨0b10000000000000010000000000010000, 0x123400000005, []⟩ = .ok (.winOpenR 0x8001 5) ∧
    decode ⟨0b00000000000111000000000000010001, 36, []⟩ = .ok (.winOpenRw 28 36) ∧
    decode ⟨0b00000000000000000000000000010010, 0, []⟩ = .ok .winClose ∧
    decode ⟨0b00000001000000100000000000010011, 0, []⟩ = .ok (.winSeek 0x0102) ∧
    decode ⟨0b00000000000000000000000000010100, 0, []⟩ = .ok .winTell ∧
    decode ⟨0b00000000000000000000000000010101, 0, []⟩ = .ok .winAvail ∧
    decode ⟨0b00000000000000000000000000011010, 0, []⟩ = .ok .winInfo := by decide

theorem test_decode_transfer_words :
    decode ⟨0b00000000000000000000000100010110, 0, []⟩ = .ok (.winRd .w1) ∧
    decode ⟨0b00000000000000000000001000010110, 0, []⟩ = .ok (.winRd .w2) ∧
    decode ⟨0b00000000000000000000010000010110, 0, []⟩ = .ok (.winRd .w4) ∧
    decode ⟨0b00000000000000000000100000010110, 0, []⟩ = .ok (.winRd .w8) ∧
    decode ⟨0b00000000000000000000001000010111, 0x11223344, []⟩ = .ok (.winWr .w2 0x3344) ∧
    decode ⟨0b00000001000000100000000000011000, 0, []⟩ = .ok (.winRdb 0x0102) ∧
    decode ⟨0b00000000000000110000000000011001, 0, [1, 1, 8]⟩ = .ok (.winWrb [1, 1, 8]) := by decide

/-- V-ENC-1 to V-ENC-8 of 95_test_vectors.md. -/
theorem test_decode_rejects_by_name :
    decode ⟨0x01000002, 0, []⟩ = .error .reservedField ∧
    decode ⟨0x01000001, 0, []⟩ = .error .reservedField ∧
    decode ⟨0x00000316, 0, []⟩ = .error .illegalWidth ∧
    decode ⟨0x00000016, 0, []⟩ = .error .illegalWidth ∧
    decode ⟨0x00010016, 0, []⟩ = .error .reservedField ∧
    decode ⟨0x00000006, 0, []⟩ = .error .unassignedOpcode ∧
    decode ⟨0x0000001B, 0, []⟩ = .error .unassignedOpcode ∧
    decode ⟨0x00000031, 0, []⟩ = .error .unassignedOpcode ∧
    decode ⟨0x000000FF, 0, []⟩ = .error .unassignedOpcode ∧
    decode ⟨0x00030019, 0, [1, 2]⟩ = .error .byteListLength ∧
    decode ⟨0x00000030, 0, [1]⟩ = .error .byteListLength := by decide

/-- R91, the column `cmd`. -/
theorem test_encode_worked_encodings :
    encode (.crcApp 0x61) = ⟨0x00610002, 0, []⟩ ∧
    encode (.crcLd 0xCA21ADCC) = ⟨0x00000005, 0x00000000CA21ADCC, []⟩ ∧
    encode (.winOpenR 65000 1000) = ⟨0xFDE80010, 0x3E8, []⟩ ∧
    encode (.winWr .w4 0x11223344) = ⟨0x00000417, 0x11223344, []⟩ ∧
    encode (.winWrb [1, 1, 8]) = ⟨0x00030019, 0, [1, 1, 8]⟩ := by decide

theorem test_decodeTableWord :
    decodeTableWord 32 0x00610002 = some (.crcApp 0x61) ∧
    decodeTableWord 32 0x00020019 = some (.winWrb [0, 0]) ∧
    decodeTableWord 32 0x00000016 = none := by decide

/-! ## Assembler (R89, R90) -/

theorem test_assemble_text :
    assembleText "crc.app 0x61 ; fold".toList = some [⟨0x00610002, 0, []⟩] ∧
    assembleText "win.open.rw 28, 36".toList = some [⟨0x001C0011, 0x24, []⟩] ∧
    assembleText "win.wrb 3, [1, 1, 8]".toList = some [⟨0x00030019, 0, [1, 1, 8]⟩] ∧
    assembleText "crc.bytes [0x31, 50]".toList = some [⟨0x00310002, 0, []⟩, ⟨0x00320002, 0, []⟩] ∧
    assembleText "win.rewind".toList = some [⟨0x00000013, 0, []⟩] := by decide

theorem test_assemble_refuses_operands_out_of_range :
    assembleText "crc.app 256".toList = none ∧ assembleText "win.rd 3".toList = none ∧
    assembleText "win.wr 1, 256".toList = none ∧ assembleText "win.seek 65536".toList = none ∧
    assembleText "win.wrb 2, [1]".toList = none ∧ assembleText "crc.ld 4294967296".toList = none := by
  decide

/-! ## Each command -/

/-- V-SYS-1. -/
theorem test_nop : after .nop State.reset (fun t => t = { State.reset with
    response := some ⟨0, 0, []⟩ }) = true := by decide

/-- The example of R105. -/
theorem test_crcInit : after .crcInit { State.reset with acc := 0x12345678 }
    (fun t => t.acc == 0xFFFFFFFF && t.status == 0) = true := by decide

/-- V-CRC-4: the low nibble goes first. -/
theorem test_crcApp_nibble_order :
    after (.crcApp 0x01) State.reset (fun t => t.acc == 0x5AFA20E4) = true := by decide

/-- V-CRC-18. -/
theorem test_crcApp_loaded : after (.crcApp 0x5A) { State.reset with acc := 0x12345678 }
    (fun t => t.acc == 0xD57275B2) = true := by decide

/-- P1, step 11, for both values of `VALUE_INVERT`. -/
theorem test_crcVal :
    after .crcVal { State.reset with acc := 0x340BC6D9 }
      (fun t => t.rdata == 0xCBF43926 && t.acc == 0x340BC6D9) = true ∧
    after .crcVal { State.reset with acc := 0x340BC6D9, cfg := ⟨false, 64⟩ }
      (fun t => t.rdata == 0x340BC6D9) = true := by decide

/-- P1, step 12. -/
theorem test_crcAcc : after .crcAcc { State.reset with acc := 0x340BC6D9 }
    (fun t => t.rdata == 0x340BC6D9 && t.status == 0) = true := by decide

/-- V-CRC-24. -/
theorem test_crcLd : afterInput (.command ⟨0x00000005, 0xDEADBEEF00000000, []⟩) State.reset
    (fun t => t.acc == 0 && t.status == 0) = true := by decide

/-- V-WIN-9, and V-WIN-14. -/
theorem test_winOpenR_edges :
    after (.winOpenR 65534 0) State.reset
      (fun t => t.valid && !t.writable && t.start == 65534 && t.status == 0) = true ∧
    after (.winOpenR 65535 0) State.reset (fun t => !t.valid && t.fault && t.faultCause == 1 &&
      t.faultCmd == 0xFFFF0010 && t.status == 6) = true := by decide

/-- P4, step 1: the window that was open stays (R121). -/
theorem test_winOpenR_fault : after (.winOpenR 65000 1000) (windowed true 10 8 3)
    (fun t => t.faultCmd == 0xFDE80010 && t.valid && t.start == 10 && t.cursor == 3) = true := by decide

/-- The example of R122, over an open window (V-WIN-26: the cursor goes to 0). -/
theorem test_winOpenRw : after (.winOpenRw 28 36) (windowed false 10 8 3)
    (fun t => t.valid && t.writable && t.start == 28 && t.length == 36 && t.cursor == 0) = true := by
  decide

/-- V-WIN-23. -/
theorem test_winClose : after .winClose (windowed true 10 18 3)
    (fun t => !t.valid && !t.writable && t.start == 0 && t.length == 0 && t.cursor == 0 &&
      t.status == 0) = true := by decide

/-- V-WIN-8. -/
theorem test_winSeek :
    after (.winSeek 8) (windowed true 10 8 0) (fun t => t.cursor == 8 && t.status == 0) = true ∧
    after (.winSeek 9) (windowed true 10 8 8) (fun t => t.cursor == 8 && t.status == 1) = true := by
  decide

/-- P2, step 10; V-WIN-1. -/
theorem test_winTell :
    after .winTell (windowed true 10 8 6) (fun t => t.rdata == 6 && t.status == 0) = true ∧
    after .winTell State.reset (fun t => t.rdata == 0 && t.status == 4) = true := by decide

/-- The example of R126. -/
theorem test_winAvail : after .winAvail (windowed true 10 8 6)
    (fun t => t.rdata == 2 && t.status == 0) = true := by decide

/-- V-WIN-17, first read, and the second one, which faults. -/
theorem test_winRd :
    after (.winRd .w4) { windowed false 60 10 0 with device := deviceP5 }
      (fun t => t.rdata == 0xD4C3B2A1 && t.cursor == 4 && t.status == 0) = true ∧
    after (.winRd .w4) { windowed false 60 10 4 with device := deviceP5 }
      (fun t => t.rdata == 0 && t.cursor == 4 && t.faultCause == 2 && t.faultCmd == 0x00000416 &&
        t.accesses == []) = true := by decide

/-- V-WIN-18: exhaustion is checked first. -/
theorem test_winRd_exhausted : after (.winRd .w8) (windowed false 60 4 0)
    (fun t => t.status == 2 && !t.fault && t.cursor == 0) = true := by decide

/-- The example of R128, over P2's first bytes. -/
theorem test_winWr : after (.winWr .w4 0x11223344)
    { windowed true 10 8 2 with device := [(10, 0xEF), (11, 0xBE)] }
    (fun t => t.device == [(10, 0xEF), (11, 0xBE), (12, 0x44), (13, 0x33), (14, 0x22), (15, 0x11)] &&
      t.cursor == 6 && t.status == 0) = true := by decide

/-- V-WIN-16: READ_ONLY before RESOURCE_EXHAUSTED. -/
theorem test_winWr_read_only : after (.winWr .w4 0) (windowed false 10 2 0)
    (fun t => t.status == 3 && t.device == []) = true := by decide

/-- P5's device read as bytes; V-WIN-19: no check of the device for a count of 0. -/
theorem test_winRdb :
    after (.winRdb 3) { windowed false 60 10 1 with device := deviceP5 }
      (fun t => t.response == some ⟨0, 0, [0xB2, 0xC3, 0xD4]⟩ && t.cursor == 4) = true ∧
    after (.winRdb 0) (windowed true 63 10 1)
      (fun t => t.response == some ⟨0, 0, []⟩ && !t.fault && t.cursor == 1) = true := by decide

/-- P3, step 11. -/
theorem test_winWrb : after (.winWrb [1, 1, 8]) (windowed true 10 3 0)
    (fun t => t.device == [(10, 1), (11, 1), (12, 8)] && t.cursor == 3 && t.status == 0) = true := by
  decide

/-- V-WIN-20; and an empty list on a read-only window (R130). -/
theorem test_winWrb_stops :
    after (.winWrb [1, 2]) (windowed true 63 10 0)
      (fun t => t.status == 6 && t.faultCause == 2 && t.device == []) = true ∧
    after (.winWrb []) (windowed false 63 10 0) (fun t => t.status == 3) = true := by decide

/-- V-WIN-25, and V-WIN-23 with no window. -/
theorem test_winInfo :
    after .winInfo (windowed false 10 18 3) (fun t => t.rdata == 0x000100030012000A) = true ∧
    after .winInfo { State.reset with rdata := 5 } (fun t => t.rdata == 0 && t.status == 0) = true := by
  decide

/-- P4, step 5. -/
theorem test_blkFstat : after .blkFstat faultedP4
    (fun t => t.rdata == 0x00000101FDE80010 && t.status == 0 && t.fault) = true := by decide

/-! ## The port -/

/-- V-SYS-3 and V-ENC-10: while faulted. -/
theorem test_faulted_block :
    afterInput (.command ⟨0x00000001, 0, []⟩) { faultedP4 with acc := 7 }
      (fun t => t.acc == 7 && t.status == 6) = true ∧
    afterInput (.command ⟨0x12345678, 0, []⟩) faultedP4 (fun t => t.status == 6) = true ∧
    afterInput (.command ⟨0x00000130, 0, []⟩) faultedP4
      (fun t => t.status == 6 && t.rdata == 0) = true := by decide

/-- V-ENC-1, and V-ENC-9: decoding comes before the window check. -/
theorem test_illegal_and_no_window :
    afterInput (.command ⟨0x01000002, 0, []⟩) State.reset
      (fun t => t.status == 5 && t.acc == 0xFFFFFFFF && !t.fault) = true ∧
    afterInput (.command ⟨0x00000116, 0, []⟩) State.reset (fun t => t.status == 4) = true := by decide

/-- P4, step 6; the device stays (R200). -/
theorem test_reset : afterInput .reset { faultedP4 with acc := 7, device := deviceP5 }
    (fun t => t = { State.reset with device := deviceP5 }) = true := by decide

/-- R202: the first two of four byte writes, in ascending order. -/
theorem test_power_loss_prefix :
    afterInput (.powerLossDuring ⟨0x00000417, 0x11223344, []⟩ 2) (windowed true 10 8 0)
      (fun t => t.device == [(10, 0x44), (11, 0x33)] && !t.valid && t.response == none) = true := by
  decide

/-- R32: a reset during the same command shows none or all of its four byte writes. -/
theorem test_reset_during_transfer :
    afterInput (.resetDuring ⟨0x00000417, 0x11223344, []⟩ false) (windowed true 10 8 0)
      (fun t => t == State.reset) = true ∧
    afterInput (.resetDuring ⟨0x00000417, 0x11223344, []⟩ true) (windowed true 10 8 0)
      (fun t => t.device == [(10, 0x44), (11, 0x33), (12, 0x22), (13, 0x11)] && !t.valid &&
        t.response == none) = true := by decide

theorem test_host_write : afterInput (.hostWrite 63 5) State.reset
    (fun t => t.device == [(63, 5)] && t.response == none) = true := by decide

theorem test_withFetchWord : step (State.reset.withFetchWord 32 0x00610002) =
    exec (.crcApp 0x61) State.reset := rfl

theorem test_idle : step State.reset = .next State.reset := rfl

/-- R57. -/
theorem test_mixed_width :
    ((State.reset.memWrite 11 4 0x11223344).memRead 13 2).1 = 0x1122 := by decide

/-- A write of the byte an unlisted address reads as removes the cell. -/
theorem test_memory_write_blank : Memory.write [(3, 1), (4, 2)] 3 0 = [(4, 2)] := by decide

/-! ## Witnesses: for every statement with hypotheses, a state and operands that meet them, each clause at
a boundary of its range -/

/-- The premises on the two halves of a statement: an unfaulted state and a faulted one. It serves
`CrcInitSetsAccumulator`, `CrcAppendFoldsOneByte`, `CrcAccReadsTheAccumulator`,
`CrcLoadWritesTheAccumulator`, `CloseClearsTheWindow`, `InfoPacksTheWindowRegisters`. -/
theorem witness_unfaulted_and_faulted : State.reset.fault = false ∧ faultedP4.fault = true := by decide

theorem witness_CrcValueReadsTheView :
    (State.reset.fault = false ∧ State.reset.cfg.valueInvert = true) ∧
    (({ State.reset with cfg := ⟨false, 0⟩ } : State).fault = false ∧
      ({ State.reset with cfg := ⟨false, 0⟩ } : State).cfg.valueInvert = false) ∧
    faultedP4.fault = true := by decide

/-- `OpenReadOnlySetsTheWindow` and `OpenReadWriteSetsTheWindow`: a sum of exactly 65534, the two smallest
operands past the bound, and the faulted block. -/
theorem witness_opens :
    (State.reset.fault = false ∧ (65534 : Half).toNat ≤ 65534 ∧
      (65534 : Half).toNat + (0 : Half).toNat ≤ 65534) ∧
    ((1 : Half).toNat ≤ 65534 ∧ (1 : Half).toNat + (65533 : Half).toNat ≤ 65534) ∧
    ¬((65534 : Half).toNat ≤ 65534 ∧ (65534 : Half).toNat + (1 : Half).toNat ≤ 65534) ∧
    ¬((65535 : Half).toNat ≤ 65534 ∧ (65535 : Half).toNat + (0 : Half).toNat ≤ 65534) ∧
    faultedP4.fault = true := by decide

theorem witness_SeekMovesTheCursorInsideTheWindow :
    ((windowed true 10 8 0).fault = false ∧ (windowed true 10 8 0).valid = true ∧
      (8 : Half).toNat ≤ (windowed true 10 8 0).length.toNat) ∧
    (windowed true 10 8 0).length.toNat < (9 : Half).toNat ∧
    (State.reset.fault = false ∧ State.reset.valid = false) ∧ faultedP4.fault = true := by decide

/-- `TellReadsTheCursor` and `AvailReadsTheBytesLeft`, the cursor at the end of the window. -/
theorem witness_tell_and_avail :
    ((windowed true 10 8 8).fault = false ∧ (windowed true 10 8 8).valid = true ∧
      (windowed true 10 8 8).cursor.toNat ≤ (windowed true 10 8 8).length.toNat) ∧
    (State.reset.fault = false ∧ State.reset.valid = false) ∧ faultedP4.fault = true := by decide

/-- `TypedReadReturnsLittleEndianBytes` and `TypedWriteStoresLittleEndianBytes`: the last four bytes of the
device, with exactly four bytes left in the window. -/
theorem witness_typed_transfers_fit :
    (windowed true 60 4 0).device.wf = true ∧ (windowed true 60 4 0).fault = false ∧
    (windowed true 60 4 0).writable = true ∧ TransferFits Width.w4.bytes (windowed true 60 4 0) := by
  decide

/-- `ArrayReadReturnsTheBytes`: no byte, with the cursor at the device's end, and the last byte. -/
theorem witness_ArrayReadReturnsTheBytes :
    ((windowed false 63 10 1).fault = false ∧
      TransferFits (0 : Half).toNat (windowed false 63 10 1)) ∧
    TransferFits (1 : Half).toNat (windowed false 63 10 0) := by decide

/-- `ArrayWriteStoresTheBytes`: no byte with the cursor at the device's end, and the last byte. -/
theorem witness_ArrayWriteStoresTheBytes :
    (([] : List Byte).length ≤ 65535 ∧ (windowed true 63 10 1).device.wf = true ∧
      (windowed true 63 10 1).fault = false ∧ (windowed true 63 10 1).writable = true ∧
      TransferFits ([] : List Byte).length (windowed true 63 10 1)) ∧
    TransferFits ([7] : List Byte).length (windowed true 63 10 0) := by decide

/-- The four clauses of `TransferStops`, for a read and for a write: no window; a read-only window; one
byte too many for the window; the last byte one past the device. -/
theorem witness_TransferStops :
    (State.reset.fault = false ∧ State.reset.valid = false) ∧
    ((windowed false 10 8 0).valid = true ∧ (Instr.winWr .w1 0).isWrite = true ∧
      (windowed false 10 8 0).writable = false) ∧
    ((windowed true 10 8 7).valid = true ∧ (windowed true 10 8 7).writable = true ∧
      (windowed true 10 8 7).length.toNat < (windowed true 10 8 7).cursor.toNat + 2) ∧
    ((windowed true 63 10 0).valid = true ∧ (windowed true 63 10 0).writable = true ∧
      (windowed true 63 10 0).cursor.toNat + 2 ≤ (windowed true 63 10 0).length.toNat ∧
      (windowed true 63 10 0).cfg.devN ≤
        (windowed true 63 10 0).start.toNat + (windowed true 63 10 0).cursor.toNat + 2 - 1) := by decide

theorem witness_PortComputesTheCrcOfAnySequence :
    ({ State.reset with inputs := issue [.crcInit, .crcApp 0x61, .crcVal] } : State).fault = false ∧
    ({ State.reset with inputs := issue [.crcInit, .crcApp 0x61, .crcVal] } : State).inputs =
      issue (.crcInit :: ([0x61] : List Byte).map .crcApp ++ [.crcVal]) ++ [] := by decide

/-- With the values of V-CRC-6. -/
theorem witness_StoredCrcContinuesOverMoreBytes :
    (0xE8B7BE43 : Word) = crcView State.reset.cfg.valueInvert (crcFold 0xFFFFFFFF [0x61]) ∧
    (0x174841BC : Word) =
      (if State.reset.cfg.valueInvert then ~~~(0xE8B7BE43 : Word) else 0xE8B7BE43) ∧
    ({ State.reset with inputs := issue [.crcLd 0x174841BC, .crcVal] } : State).inputs =
      issue (.crcLd 0x174841BC :: ([] : List Byte).map .crcApp ++ [.crcVal]) ++ [] := by decide

/-- The widest value of the width, and the longest byte list. -/
theorem witness_DecodeOfEncodeIsTheCommand :
    (Instr.winWr .w2 0xFFFF).wellFormed = true ∧
    (Instr.winWrb (List.replicate 65535 0)).wellFormed = true := by
  refine ⟨by decide, ?_⟩
  rw [Instr.wellFormed_winWrb, List.length_replicate]

theorem witness_DefinedWordIsTheWordOfItsCommand :
    decode ⟨0x00000217, 0xFFFF0005, []⟩ = .ok (.winWr .w2 5) := by decide

theorem witness_AssembledLinesAreDefined :
    assemble (.winWrb 1 [255]) = some [⟨0x00010019, 0, [255]⟩] := by decide

/-- The highest ASCII code. -/
theorem witness_PseudoInstructionsExpand : ∀ c ∈ [49, 127], c < 128 := by decide

theorem witness_StepRunsTheDecodedCommand :
    (State.reset.withInput (.command ⟨0x00610002, 0, []⟩)).inputs =
      .command ⟨0x00610002, 0, []⟩ :: [] ∧
    decode ⟨0x00610002, 0, []⟩ = .ok (.crcApp 0x61) := by decide

theorem witness_UndefinedTransactionEndsIllegal :
    (State.reset.withInput (.command ⟨0x00000016, 0, []⟩)).inputs =
      .command ⟨0x00000016, 0, []⟩ :: [] ∧
    decode ⟨0x00000016, 0, []⟩ = .error .illegalWidth ∧
    State.reset.fault = false ∧ faultedP4.fault = true := by decide

theorem witness_FaultedBlockRunsOnlyFstat :
    faultedP4.fault = true ∧
    (faultedP4.withInput (.command ⟨0x00000030, 0, [1]⟩)).inputs =
      .command ⟨0x00000030, 0, [1]⟩ :: [] ∧
    ¬((0x00000030 : Word) = 0x00000030 ∧ ([1] : List Byte) = []) ∧
    (faultedP4.withInput (.command ⟨0x00000030, 0, []⟩)).inputs =
      .command ⟨0x00000030, 0, []⟩ :: [] := by decide

theorem witness_IdleBlockHoldsItsState : State.reset.inputs = [] := rfl

theorem witness_ResetSetsEveryRegister :
    (faultedP4.withInput .reset).inputs = .reset :: [] ∧
    (faultedP4.withInput .powerLoss).inputs = .powerLoss :: [] := by decide

/-- No access made, the last access made, and one write of the byte list and of the typed form. -/
theorem witness_PowerLossLeavesAPrefixOfTheWrite :
    ((windowed true 60 4 0).withInput (.powerLossDuring ⟨0x00000417, 0x11223344, []⟩ 4)).inputs =
      .powerLossDuring ⟨0x00000417, 0x11223344, []⟩ 4 :: [] ∧
    decode ⟨0x00000417, 0x11223344, []⟩ = .ok (.winWr .w4 0x11223344) ∧
    bytesOf Width.w4.bytes 0x11223344 = [0x44, 0x33, 0x22, 0x11] ∧
    ((windowed true 60 4 0).withInput (.powerLossDuring ⟨0x00020019, 0, [1, 2]⟩ 0)).inputs =
      .powerLossDuring ⟨0x00020019, 0, [1, 2]⟩ 0 :: [] ∧
    decode ⟨0x00020019, 0, [1, 2]⟩ = .ok (.winWrb [1, 2]) ∧
    (windowed true 60 4 0).device.wf = true ∧ (windowed true 60 4 0).fault = false ∧
    (windowed true 60 4 0).writable = true ∧
    TransferFits 4 (windowed true 60 4 0) ∧ TransferFits 2 (windowed true 60 4 0) := by decide

theorem witness_InterruptedCommandNeverMixesABytesValue :
    (windowed true 60 4 0).device.wf = true ∧
    ((windowed true 60 4 0).withInput (.powerLossDuring ⟨0x00000417, 1, []⟩ 0)).inputs =
      .powerLossDuring ⟨0x00000417, 1, []⟩ 0 :: [] ∧
    ((windowed true 60 4 0).withInput (.resetDuring ⟨0x00000417, 1, []⟩ true)).inputs =
      .resetDuring ⟨0x00000417, 1, []⟩ true :: [] := by decide

/-- Both answers, for a transfer of the last bytes of the device. -/
theorem witness_ResetNeverShowsAHalfDoneTransfer :
    ((windowed true 60 4 0).withInput (.resetDuring ⟨0x00000417, 1, []⟩ false)).inputs =
      .resetDuring ⟨0x00000417, 1, []⟩ false :: [] ∧
    ((windowed true 60 4 0).withInput (.resetDuring ⟨0x00000417, 1, []⟩ true)).inputs =
      .resetDuring ⟨0x00000417, 1, []⟩ true :: [] := by decide

/-- The last address of the device and the first past it. -/
theorem witness_HostWriteChangesOneByte :
    State.reset.device.wf = true ∧
    ((State.reset.withInput (.hostWrite 63 5)).inputs = .hostWrite 63 5 :: [] ∧
      (63 : Half).toNat < State.reset.cfg.devN) ∧
    ((State.reset.withInput (.hostWrite 64 5)).inputs = .hostWrite 64 5 :: [] ∧
      State.reset.cfg.devN ≤ (64 : Half).toNat) := by decide

/-- `TransfersAreAllOrNothing` and `DeviceAccessesAreCounted`: a transfer that ends OK, one that does not,
and a command that is no transfer. -/
theorem witness_transfers :
    (Instr.winRd .w4).isTransfer = true ∧
    after (.winRd .w4) (windowed false 60 4 0) (fun t => t.status == 0) = true ∧
    after (.winRd .w4) (windowed false 60 4 1) (fun t => t.status == 2) = true ∧
    Instr.isTransfer .winInfo = false ∧ after .winInfo State.reset (fun _ => true) = true := by decide

theorem witness_DeviceIsWhatTheWritesLeft :
    after (.winWrb [1, 2]) (windowed true 62 2 0)
      (fun t => t.accesses == [.write 62 1, .write 63 2]) = true := by decide

/-- A command that returns no data, and one that does and ends with another status. -/
theorem witness_OnlyDataCommandsThatEndOkWriteRdata :
    (Instr.returnsData .crcInit = false ∧ after .crcInit State.reset (fun _ => true) = true) ∧
    after .winTell State.reset (fun t => t.status != 0) = true := by decide

theorem witness_ResponseCarriesTheRegisters :
    after (.winRdb 1) (windowed false 63 1 0) (fun t => t.response == some ⟨0, 0, [0]⟩) = true := by
  decide

theorem witness_NoWindowStopsWindowCommands :
    ((Instr.winRdb 0).needsWindow = true ∧ State.reset.fault = false ∧ State.reset.valid = false) ∧
    (Instr.needsWindow .winInfo = false ∧ after .winInfo State.reset (fun _ => true) = true) := by
  decide

theorem witness_unit_commands :
    Instr.isWindow .winInfo = true ∧ after .winInfo State.reset (fun _ => true) = true ∧
    Instr.isCrc .crcVal = true := by decide

/-- A reset event and a command, in the faulted state. -/
theorem witness_OnlyResetLeavesTheFaultedState :
    faultedP4.fault = true ∧
    (Input.isReset .powerLoss = true ∧ afterInput .powerLoss faultedP4 (fun _ => true) = true) ∧
    (Input.isReset (.command ⟨0x00000001, 0, []⟩) = false ∧
      afterInput (.command ⟨0x00000001, 0, []⟩) faultedP4 (fun _ => true) = true) := by decide

/-- One fault of each cause. -/
theorem witness_FaultEntryRecordsTheWordOfTheTransaction :
    State.reset.fault = false ∧
    afterInput (.command ⟨0xFFFE0011, 1, []⟩) State.reset (fun t => t.fault) = true ∧
    (windowed false 63 10 0).fault = false ∧
    afterInput (.command ⟨0x00020018, 0, []⟩) (windowed false 63 10 0) (fun t => t.fault) = true := by
  decide

/-- A legal window whose end is the highest one, over a device as large as it may be, with a byte read at
65533; and a byte written. -/
theorem witness_WindowConfinesDeviceAccess :
    ({ windowed false 65533 1 0 with cfg := ⟨true, 65534⟩ } : State).windowWf ∧
    after (.winRd .w1) { windowed false 65533 1 0 with cfg := ⟨true, 65534⟩ }
      (fun t => t.accesses == [.read 65533]) = true ∧
    (windowed true 63 1 0).windowWf ∧ (windowed true 63 1 0).device.wf = true ∧
    after (.winWr .w1 5) (windowed true 63 1 0) (fun t => t.byteAt 63 == 5) = true := by decide

theorem witness_ParametersNeverChange :
    afterInput .reset { State.reset with cfg := ⟨false, 7⟩ } (fun t => t.cfg == ⟨false, 7⟩) = true := by
  decide

/-- `UpdateLeavesTheBytesOfWrite` and `MixedWidthAccessIsLittleEndian`. -/
theorem witness_canonical_device : Memory.wf deviceP5 = true := by decide

/-- A legal state with a window, a device that is not blank and a response. -/
def busy : State :=
  { windowed true 60 4 0 with device := deviceP5, response := some ⟨0, 0, [1]⟩ }

theorem busy_inv : busy.Inv where
  params := by decide
  canonical := by decide
  addresses := by decide
  window := by decide
  faults := by decide
  codes := by decide
  answer := by
    rintro r ⟨⟩
    decide

/-- The same state with other inputs is as legal. -/
theorem busy_inputs_inv (xs : List Input) : ({ busy with inputs := xs } : State).Inv where
  params := busy_inv.params
  canonical := busy_inv.canonical
  addresses := busy_inv.addresses
  window := busy_inv.window
  faults := busy_inv.faults
  codes := busy_inv.codes
  answer := busy_inv.answer

/-- The widest value of the width, with exactly its bytes left. -/
theorem witness_TypedReadReturnsWhatWasWritten :
    let s : State := { busy with inputs := issue [.winWr .w4 0xFFFFFFFF, .winSeek 0, .winRd .w4] }
    Width.w4.holds 0xFFFFFFFF = true ∧ s.Inv ∧ s.fault = false ∧ s.writable = true ∧
      TransferFits Width.w4.bytes s ∧
      s.inputs = issue [.winWr .w4 0xFFFFFFFF, .winSeek s.cursor, .winRd .w4] ++ [] :=
  ⟨by decide, busy_inputs_inv _, rfl, rfl, by decide, by decide⟩

theorem witness_ArrayReadReturnsWhatWasWritten :
    let bytes : List Byte := [1, 2, 3, 4]
    let s : State := { busy with inputs := issue [.winWrb bytes, .winSeek 0, .winRdb 4] }
    bytes.length ≤ 65535 ∧ s.Inv ∧ s.fault = false ∧ s.writable = true ∧
      TransferFits bytes.length s ∧
      s.inputs = issue [.winWrb bytes, .winSeek s.cursor,
        .winRdb (BitVec.ofNat 16 bytes.length)] ++ [] :=
  ⟨by decide, busy_inputs_inv _, rfl, rfl, by decide, by decide⟩

/-- A step that writes the device, from a legal state. -/
theorem witness_StepKeepsTheInvariant :
    (busy.withInput (.command ⟨0x00000417, 0, []⟩)).Inv ∧
    afterInput (.command ⟨0x00000417, 0, []⟩) busy
      (fun t => t.device == [] && t.cursor == 4 && t.status == 0) = true :=
  ⟨busy_inputs_inv _, by decide⟩

end Sys2Proof.Tests
end

section
/-! SUPPORT. What a command leaves of `RDATA`, of the window and of the device, and that each kind of
step keeps the invariant; then the statements of 10_state.md. -/

namespace Sys2Proof.Machine

/-! ## The registers and the device after a command -/

/-- The state a command leaves: a failure status and nothing else, its effect, or a fault. -/
theorem exec_next_cases {i : Instr} {s t : State} (h : exec i s = .next t) :
    (∃ st, t = s.startCommand.finish st []) ∨
    (checkOf i s = .run ∧ t = effectOf i s.startCommand) ∨
    (∃ c, checkOf i s = .raise c ∧ t = s.startCommand.raiseFault c i) := by
  rcases exec_cases i s with ⟨_, _, h'⟩ | ⟨_, hc, h'⟩ | ⟨st, _, _, h'⟩ | ⟨c, _, hc, h'⟩
  all_goals
    rw [h'] at h
    cases h
  · exact .inl ⟨.faulted, rfl⟩
  · exact .inr (.inl ⟨hc, rfl⟩)
  · exact .inl ⟨st, rfl⟩
  · exact .inr (.inr ⟨c, hc, rfl⟩)

/-- A command that returns no data, or that does not end OK, leaves `RDATA` (10_state.md R27). -/
theorem exec_rdata {i : Instr} {s t : State} (h : exec i s = .next t)
    (hi : i.returnsData = false ∨ t.status ≠ 0) : t.rdata = s.rdata := by
  rcases exec_next_cases h with ⟨_, rfl⟩ | ⟨_, rfl⟩ | ⟨_, _, rfl⟩
  · rfl
  · rcases hi with hi | hst
    · exact effectOf_rdata hi s.startCommand
    · exact absurd (effectOf_status i s.startCommand) hst
  · rfl

/-- A command leaves the device as its own accesses do (20_memory.md R61). -/
theorem exec_device {i : Instr} {s t : State} (h : exec i s = .next t) :
    t.device = s.device.perform t.accesses := by
  rcases exec_next_cases h with ⟨_, rfl⟩ | ⟨_, rfl⟩ | ⟨_, _, rfl⟩
  · rfl
  · rw [effectOf_device, effectOf_accesses]
    rfl
  · rfl

/-- A transaction, defined or not, leaves the device as its own accesses do. -/
theorem transact_device {tx : Transaction} {s t : State} (h : transact tx s = .next t) :
    t.device = s.device.perform t.accesses := by
  rcases transact_cases tx s with ⟨i, _, hi⟩ | ⟨_, _, he⟩
  · exact exec_device (hi ▸ h)
  · rw [he] at h
    cases h
    rfl

/-- A command that passes its checks accesses only bytes of the device (20_memory.md R60). -/
theorem addr_lt_of_mem_accessesOf {i : Instr} {s : State} (hc : checkOf i s = .run) {x : Access}
    (hx : x ∈ accessesOf i s) : x.addr < s.cfg.devN := by
  cases ht : i.isTransfer with
  | false => simp [accessesOf_of_not_transfer ht] at hx
  | true =>
    obtain ⟨_, _, _, hdev⟩ := checkOf_run_transfer ht hc
    have hmem := List.mem_map_of_mem (f := Access.addr) hx
    rw [accessesOf_addr, List.mem_map] at hmem
    obtain ⟨k, hk, hka⟩ := hmem
    have hk := List.mem_range.1 hk
    have hlast := State.not_pastDevice_iff.1 hdev
    simp only [State.base] at hka
    omega

/-- Every access of a transaction is at a byte of the device. -/
theorem transact_addr_lt {tx : Transaction} {s t : State} (h : transact tx s = .next t) {x : Access}
    (hx : x ∈ t.accesses) : x.addr < s.cfg.devN := by
  rcases transact_cases tx s with ⟨i, _, hi⟩ | ⟨_, _, he⟩
  · rcases exec_accesses (hi ▸ h) with hnil | ⟨hacc, hc⟩
    · simp [hnil] at hx
    · exact addr_lt_of_mem_accessesOf hc (hacc ▸ hx)
  · rw [he] at h
    cases h
    cases hx

/-- Both cuts of an interrupted command keep the first of its accesses
(70_reset_and_hazards.md R200, R202). -/
theorem cut_eq_take {x : Input} {tx : Transaction} {cut : List Access → List Access}
    (h : (∃ done, x = .powerLossDuring tx done ∧ cut = powerLossCut done) ∨
      (∃ transferred, x = .resetDuring tx transferred ∧ cut = resetCut transferred))
    (xs : List Access) : ∃ done, cut xs = xs.take done := by
  rcases h with ⟨done, _, rfl⟩ | ⟨transferred, _, rfl⟩
  · exact ⟨done, rfl⟩
  · exact resetCut_eq_take transferred xs

/-- Accesses inside the device keep every cell inside it. -/
theorem Memory.within_perform {n : Nat} {m : Memory} {xs : List Access} (h : m.within n = true)
    (hx : ∀ x ∈ xs, x.addr < n) : (m.perform xs).within n = true := by
  induction xs generalizing m with
  | nil => exact h
  | cons x rest ih =>
    obtain ⟨hhead, hrest⟩ := List.forall_mem_cons.1 hx
    cases x with
    | read a => exact ih h hrest
    | write a v => exact ih (Memory.within_write v h hhead) hrest

/-! ## The window registers after an effect -/

/-- When an open passes its check (41_window.md R121). -/
theorem openCheck_run {start len : Half} {s : State} :
    openCheck start len s = .run ↔ windowFits start len = true := by
  simp only [openCheck]
  cases windowFits start len <;> simp

/-- When a seek passes its checks (41_window.md R124). -/
theorem seekCheck_run {c : Half} {s : State} :
    seekCheck c s = .run ↔ s.valid = true ∧ c.toNat ≤ s.length.toNat := by
  simp only [seekCheck, windowCheck]
  cases s.valid <;> simp

theorem State.windowWf_openWindow (s : State) (canWrite : Bool) {start len : Half}
    (h : windowFits start len = true) : (s.openWindow canWrite start len).windowWf := by
  obtain ⟨hstart, hend⟩ := windowFits_iff.1 h
  exact ⟨(fun hv => by cases hv), fun _ => ⟨hstart, hend, Nat.zero_le _⟩⟩

theorem State.windowWf_closeWindow (s : State) : s.closeWindow.windowWf :=
  ⟨fun _ => ⟨rfl, rfl, rfl, rfl⟩, fun hv => by cases hv⟩

theorem State.windowWf_setCursor {s : State} {c : Half} (h : s.windowWf) (hv : s.valid = true)
    (hc : c.toNat ≤ s.length.toNat) : (s.setCursor c).windowWf := by
  obtain ⟨hstart, hend, _⟩ := h.2 hv
  exact ⟨fun hv' => absurd (hv'.symm.trans hv) Bool.false_ne_true, fun _ => ⟨hstart, hend, hc⟩⟩

/-- A transfer that the window has room for leaves the cursor in it; the sum does not wrap. -/
theorem State.windowWf_advance {s : State} {count : Nat} (h : s.windowWf) (hv : s.valid = true)
    (hx : s.exhausted count = false) : (s.advance count).windowWf := by
  refine State.windowWf_setCursor h hv ?_
  have hroom := State.not_exhausted_iff.1 hx
  have hlen := s.length.isLt
  rw [BitVec.toNat_add, BitVec.toNat_ofNat, Nat.add_mod_mod, Nat.mod_eq_of_lt (by omega)]
  exact hroom

/-- A transfer leaves the window registers as the advance of the cursor does (41_window.md R132). -/
theorem effectOf_windowWf_transfer {i : Instr} (ht : i.isTransfer = true) (s : State) :
    (effectOf i s).windowWf ↔ (s.advance i.count).windowWf := by
  cases i with
  | winRd w => simp [State.windowWf, effectOf, State.memRead, State.readBytes_state, Instr.count]
  | winWr w v => simp [State.windowWf, effectOf, State.memWrite, State.writeBytes_state, Instr.count]
  | winRdb k => simp [State.windowWf, effectOf, State.readBytes_state, Instr.count]
  | winWrb bytes => simp [State.windowWf, effectOf, State.writeBytes_state, Instr.count]
  | _ => cases ht

/-- A command that passes its checks leaves a legal window (10_state.md R24, R25). -/
theorem effectOf_windowWf {i : Instr} {s : State} (h : s.windowWf) (hc : checkOf i s = .run) :
    (effectOf i s).windowWf := by
  cases ht : i.isTransfer with
  | true =>
    obtain ⟨hv, _, hx, _⟩ := checkOf_run_transfer ht hc
    exact (effectOf_windowWf_transfer ht s).2 (State.windowWf_advance h hv hx)
  | false =>
    cases i with
    | winOpenR start len => exact State.windowWf_openWindow s false ((openCheck_run (s := s)).1 hc)
    | winOpenRw start len => exact State.windowWf_openWindow s true ((openCheck_run (s := s)).1 hc)
    | winClose => exact State.windowWf_closeWindow s
    | winSeek c =>
      obtain ⟨hv, hle⟩ := (seekCheck_run (s := s)).1 hc
      exact State.windowWf_setCursor (s := s) h hv hle
    | winRd _ | winWr _ _ | winRdb _ | winWrb _ => cases ht
    | _ => exact h

/-! ## What keeps the invariant -/

theorem Status.code_le (st : Status) : st.code.toNat ≤ 6 := by
  cases st <;> decide

/-- The invariant asks of the device's bytes that they are canonical and inside it, and nothing of the
recorded accesses and of the inputs that wait. -/
theorem State.Inv.withDevice {s : State} (h : s.Inv) {m : Memory} (hm : m.wf = true)
    (hn : m.within s.cfg.devN = true) (xs : List Access) (ys : List Input) :
    ({ s with device := m, accesses := xs, inputs := ys } : State).Inv :=
  { h with canonical := hm, addresses := hn }

theorem State.Inv.withInputs {s : State} (h : s.Inv) (ys : List Input) :
    ({ s with inputs := ys } : State).Inv := h.withDevice h.canonical h.addresses _ ys

theorem State.Inv.startCommand {s : State} (h : s.Inv) : s.startCommand.Inv :=
  h.withDevice h.canonical h.addresses [] _

/-- A command's end writes a status code and the response that carries it. -/
theorem State.Inv.finish {s : State} (h : s.Inv) (st : Status) (bs : List Byte) :
    (s.finish st bs).Inv :=
  { h with
    codes := st.code_le
    answer := by
      rintro r ⟨⟩
      exact ⟨rfl, rfl⟩ }

/-- Fault entry pairs the cause with a command that can raise it (60_exceptions.md R173, R174). -/
theorem State.Inv.raiseFault {s u : State} {i : Instr} {c : FaultCause} (h : s.Inv)
    (hc : checkOf i u = .raise c) : (s.raiseFault c i).Inv := by
  have hfaults : (s.raiseFault c i).faultWf := by
    refine ⟨(fun hf => by cases hf), fun _ => ?_⟩
    rcases checkOf_raise hc with ⟨rfl, hop⟩ | ⟨rfl, hop⟩
    · exact .inl ⟨rfl, hop⟩
    · exact .inr ⟨rfl, hop⟩
  exact { h.finish .faulted [] with faults := hfaults }

/-- The effect of a command that passed its checks keeps the invariant. -/
theorem effectOf_inv {i : Instr} {s : State} (h : s.Inv) (hc : checkOf i s = .run) :
    (effectOf i s).Inv where
  params := by simpa using h.params
  canonical := by simpa [effectOf_device] using Memory.wf_perform _ h.canonical
  addresses := by
    simpa [effectOf_device] using
      Memory.within_perform h.addresses fun _ => addr_lt_of_mem_accessesOf hc
  window := effectOf_windowWf h.window hc
  faults := by simpa [State.faultWf] using h.faults
  codes := by simp
  answer := by
    intro r hr
    cases (effectOf_response i s).symm.trans hr
    simp

/-- A command keeps the invariant, however it ends. -/
theorem exec_inv {i : Instr} {s t : State} (h : s.Inv) (ht : exec i s = .next t) : t.Inv := by
  have hstart := h.startCommand
  rcases exec_next_cases ht with ⟨st, rfl⟩ | ⟨hc, rfl⟩ | ⟨c, hc, rfl⟩
  · exact hstart.finish st []
  · exact effectOf_inv hstart ((checkOf_startCommand i s).trans hc)
  · exact hstart.raiseFault hc

/-- A transaction, defined or not, keeps the invariant. -/
theorem transact_inv {tx : Transaction} {s t : State} (h : s.Inv) (ht : transact tx s = .next t) :
    t.Inv := by
  rcases transact_cases tx s with ⟨i, _, hi⟩ | ⟨_, _, he⟩
  · exact exec_inv h (hi ▸ ht)
  · rw [he] at ht
    cases ht
    exact h.startCommand.finish _ []

/-- The state after reset satisfies the invariant (10_state.md R33). -/
theorem State.reset_inv : State.reset.Inv where
  params := by decide
  canonical := rfl
  addresses := rfl
  window := by decide
  faults := by decide
  codes := by decide
  answer := by
    rintro r ⟨⟩

/-- A reset keeps the device and the parameters, and leaves every register as `State.reset` has it. -/
theorem State.Inv.resetBlock {s : State} (h : s.Inv) : s.resetBlock.Inv :=
  { State.reset_inv with params := h.params, canonical := h.canonical, addresses := h.addresses }

/-- Any first accesses of a transaction leave a canonical device, its cells inside it
(70_reset_and_hazards.md R202). -/
theorem take_accesses_inv {tx : Transaction} {s u : State} (h : s.Inv)
    (hu : transact tx s = .next u) (done : Nat) :
    (s.device.perform (u.accesses.take done)).wf = true ∧
      (s.device.perform (u.accesses.take done)).within s.cfg.devN = true :=
  ⟨Memory.wf_perform _ h.canonical,
    Memory.within_perform h.addresses fun _ hx => transact_addr_lt hu (List.mem_of_mem_take hx)⟩

/-- Every step keeps the invariant, whatever the next input is. -/
theorem step_inv {s t : State} (h : s.Inv) (hst : step s = .next t) : t.Inv := by
  rcases step_cases s with ⟨_, hs⟩ | ⟨tx, rest, _, hs⟩ | ⟨_, rest, _, _, hs⟩ |
    ⟨_, tx, cut, rest, u, _, hcut, hu, hs⟩ | ⟨a, v, rest, _, ha, hs⟩ | ⟨_, _, _, _, _, hs⟩
  all_goals rw [hs] at hst
  · cases hst
    exact h
  · exact transact_inv (h.withInputs rest) hst
  · cases hst
    exact (h.withInputs rest).resetBlock
  · cases hst
    obtain ⟨done, hdone⟩ := cut_eq_take hcut u.accesses
    obtain ⟨hwf, hin⟩ := take_accesses_inv (h.withInputs rest) hu done
    rw [hdone]
    exact (h.withDevice hwf hin _ rest).resetBlock.withDevice hwf hin _ _
  · cases hst
    exact h.withDevice (Memory.wf_write _ v h.canonical) (Memory.within_write v h.addresses ha) _
      rest
  · cases hst

/-! ## The statements of 10_state.md -/

/-- Settles O57: the cases of a step, each by the lemma that its operation keeps the invariant. -/
theorem stepKeepsTheInvariant : Obligations.StepKeepsTheInvariant :=
  fun _ _ => step_inv

/-- Settles O43: only an effect writes `RDATA`, and an effect ends OK. -/
theorem onlyDataCommandsThatEndOkWriteRdata : Obligations.OnlyDataCommandsThatEndOkWriteRdata :=
  fun _ _ _ => exec_rdata

/-- Settles O58: the reset performs all accesses of the command or none, and all of them give the
device of the whole command. -/
theorem resetNeverShowsAHalfDoneTransfer : Obligations.ResetNeverShowsAHalfDoneTransfer := by
  intro s tx transferred rest hs
  obtain ⟨u, hu⟩ := transact_next tx { s with inputs := rest }
  refine ⟨_, u, (step_cons hs).trans (interrupt_eq hu _), hu, ?_⟩
  rw [perform_resetCut, ← transact_device hu]
  rfl

/-- Settles O19, entry by entry. -/
theorem tableEntriesAreFourBitSteps : Obligations.TableEntriesAreFourBitSteps := by
  unfold Obligations.TableEntriesAreFourBitSteps
  decide

/-- Settles O31: the head of the inputs is taken, and the transaction is its command. -/
theorem stepRunsTheDecodedCommand : Obligations.StepRunsTheDecodedCommand := by
  intro s tx rest i hs hd
  rw [step_cons hs, takeInput, transact, hd]

/-- Settles O35: both inputs are the reset of the block. -/
theorem resetSetsEveryRegister : Obligations.ResetSetsEveryRegister := by
  rintro s x rest (rfl | rfl) hs
  · exact ⟨_, step_cons hs, rfl⟩
  · exact ⟨_, step_cons hs, rfl⟩

/-- Settles O56, clause by clause. -/
theorem resetSatisfiesTheInvariant : Obligations.ResetSatisfiesTheInvariant := State.reset_inv

end Sys2Proof.Machine
end

section
/-! SUPPORT. What the accesses of a command can reach and change, and what is read back of bytes that
were written; then the statements of 20_memory.md. -/

namespace Sys2Proof.Machine

/-! ## What accesses change -/

/-- Accesses that change a byte write it (20_memory.md R59, R61). -/
theorem Memory.exists_write_of_read_perform_ne {m : Memory} {xs : List Access} {a : Nat}
    (hm : m.wf = true) (h : (m.perform xs).read a ≠ m.read a) : ∃ v, Access.write a v ∈ xs := by
  induction xs generalizing m with
  | nil => exact absurd rfl h
  | cons x rest ih =>
    cases x with
    | read b =>
      obtain ⟨v, hv⟩ := ih hm h
      exact ⟨v, List.mem_cons_of_mem _ hv⟩
    | write b v =>
      by_cases hb : b = a
      · exact ⟨v, hb ▸ List.mem_cons_self⟩
      · have hold : (m.write b v).read a = m.read a := by rw [Memory.read_write hm, if_neg hb]
        obtain ⟨v', hv'⟩ := ih (Memory.wf_write b v hm) (hold ▸ h)
        exact ⟨v', List.mem_cons_of_mem _ hv'⟩

/-- Every access of a command is at one of its bytes, counted from the cursor (20_memory.md R54). -/
theorem exists_addr_of_mem_accessesOf {i : Instr} {s : State} {x : Access}
    (hx : x ∈ accessesOf i s) :
    ∃ k < i.count, x.addr = s.start.toNat + s.cursor.toNat + k := by
  have hmem := List.mem_map_of_mem (f := Access.addr) hx
  rw [accessesOf_addr, List.mem_map] at hmem
  obtain ⟨k, hk, hka⟩ := hmem
  exact ⟨k, List.mem_range.1 hk, hka.symm⟩

/-- A command that passes its checks and makes an access is a transfer, and the byte lies in the window,
at or after the cursor (20_memory.md R54, R60). -/
theorem addr_in_window_of_mem_accessesOf {i : Instr} {s : State} (hc : checkOf i s = .run)
    {x : Access} (hx : x ∈ accessesOf i s) :
    s.valid = true ∧ s.start.toNat + s.cursor.toNat ≤ x.addr ∧
      x.addr < s.start.toNat + s.length.toNat := by
  cases ht : i.isTransfer with
  | false => simp [accessesOf_of_not_transfer ht] at hx
  | true =>
    obtain ⟨hv, _, hroom, _⟩ := checkOf_run_transfer ht hc
    have hfit := State.not_exhausted_iff.1 hroom
    obtain ⟨k, hk, hka⟩ := exists_addr_of_mem_accessesOf hx
    exact ⟨hv, by omega, by omega⟩

/-- A window write is a window transfer. -/
theorem isTransfer_of_isWrite {i : Instr} (hi : i.isWrite = true) : i.isTransfer = true := by
  cases i with
  | winWr _ _ | winWrb _ => rfl
  | _ => cases hi

/-- Without a writable window a command leaves the device: a write does not pass its checks, and
nothing else writes (20_memory.md R65). -/
theorem exec_device_of_not_writable {i : Instr} {s t : State} (h : exec i s = .next t)
    (hw : s.writable = false) : t.device = s.device := by
  rw [exec_device h]
  rcases exec_accesses h with hnil | ⟨hacc, hc⟩
  · rw [hnil]
    rfl
  · rw [hacc]
    cases hi : i.isWrite with
    | false => exact perform_accessesOf_of_not_write hi s _
    | true =>
      obtain ⟨_, hwrite, _⟩ := checkOf_run_transfer (isTransfer_of_isWrite hi) hc
      exact absurd (hwrite hi) (by simp [hw])

/-! ## CRC commands -/

/-- The state over another device and with the window registers of another state. -/
def State.withMemoryOf (s o : State) : State :=
  { s with
    device := o.device, valid := o.valid, writable := o.writable, start := o.start
    length := o.length, cursor := o.cursor }

/-- A CRC command has no check of its own (40_crc.md R110). -/
theorem checkOf_of_isCrc {i : Instr} (hi : i.isCrc = true) (s : State) : checkOf i s = .run := by
  cases i with
  | crcInit | crcApp _ | crcVal | crcAcc | crcLd _ => rfl
  | _ => cases hi

/-- The effect of a CRC command reads only `ACC` and the parameters, and writes neither the device nor
the window registers (20_memory.md R66). -/
theorem effectOf_withMemoryOf {i : Instr} (hi : i.isCrc = true) (s o : State) :
    effectOf i (s.withMemoryOf o) = (effectOf i s).withMemoryOf o := by
  cases i with
  | crcInit | crcApp _ | crcVal | crcAcc | crcLd _ => rfl
  | _ => cases hi

/-- A CRC command does the same over every device and window, faulted or not (20_memory.md R66). -/
theorem exec_withMemoryOf {i : Instr} (hi : i.isCrc = true) (s o : State) :
    exec i (s.withMemoryOf o) = mapNext (State.withMemoryOf · o) (exec i s) := by
  cases hf : s.fault with
  | true =>
    have hne : i ≠ .blkFstat := by
      rintro rfl
      cases hi
    rw [exec_faulted hne hf, exec_faulted (s := s.withMemoryOf o) hne hf]
    rfl
  | false =>
    rw [exec_run hf (checkOf_of_isCrc hi s),
      exec_run (s := s.withMemoryOf o) hf (checkOf_of_isCrc hi _)]
    exact congrArg _ (effectOf_withMemoryOf hi s.startCommand o)

/-! ## Reading back what was written -/

/-- Reading inside a range of written bytes gives the bytes written there (20_memory.md R61). -/
theorem State.readBytes_of_writesFrom {m : Memory} {t : State} {a k n : Nat} {bytes : List Byte}
    (hm : m.wf = true) (ht : t.device = m.perform (writesFrom a bytes))
    (hk : k + n ≤ bytes.length) : (t.readBytes (a + k) n).1 = (bytes.drop k).take n := by
  rw [State.readBytes_eq_map]
  apply List.ext_getElem
  · simp
    omega
  · intro j hj _
    have hj : j < n := by simpa using hj
    have hread := Memory.read_writesFrom_inside hm a (show k + j < bytes.length by omega)
    simp [State.byteAt, ht, Nat.add_assoc, hread]

/-- The value of bytes read inside a range of written bytes (20_memory.md R55). -/
theorem State.memRead_of_writesFrom {m : Memory} {t : State} {a k n : Nat} {bytes : List Byte}
    (hm : m.wf = true) (ht : t.device = m.perform (writesFrom a bytes))
    (hk : k + n ≤ bytes.length) :
    (t.memRead (a + k) n).1 = valueOf ((bytes.drop k).take n) :=
  congrArg valueOf (State.readBytes_of_writesFrom hm ht hk)

/-- Part of a value written to the device, read back: the bytes of that part (20_memory.md R55–R57). -/
theorem State.memRead_memWrite {s : State} (h : s.device.wf = true) (a : Nat) {k n width : Nat}
    (v : Data) (hk : k + n ≤ width) :
    ((s.memWrite a width v).memRead (a + k) n).1 = valueOf (((bytesOf width v).drop k).take n) := by
  refine State.memRead_of_writesFrom h ?_ (by simpa using hk)
  rw [State.memWrite, State.writeBytes_state]

/-- A value is put together from its bytes, when it has no others (20_memory.md R55, R56). -/
theorem valueOf_bytesOf {n : Nat} {v : Data} (h : v.toNat < 2 ^ (8 * n)) :
    valueOf (bytesOf n v) = v := by
  induction n generalizing v with
  | zero =>
    have hzero : v.toNat = 0 := by simpa using h
    apply BitVec.eq_of_toNat_eq
    simp [bytesOf, valueOf, hzero]
  | succ n ih =>
    have hshift : (v >>> 8).toNat < 2 ^ (8 * n) := by
      rw [BitVec.toNat_ushiftRight, Nat.shiftRight_eq_div_pow]
      apply Nat.div_lt_of_lt_mul
      rwa [← Nat.pow_add, Nat.add_comm 8]
    rw [bytesOf, valueOf, ih hshift]
    apply BitVec.eq_of_getLsbD_eq
    intro i hi
    rcases Nat.lt_or_ge i 8 with h8 | h8
    · simp [h8, hi]
    · simp [hi, show ¬i < 8 by omega, show 8 + (i - 8) = i by omega]

/-- A value of a width has only the bytes of that width (30_encoding.md R89). -/
theorem Width.toNat_lt_of_holds {w : Width} {v : Data} (h : w.holds v = true) :
    v.toNat < 2 ^ (8 * w.bytes) := by
  cases w with
  | w8 => exact v.isLt
  | w1 | w2 | w4 => exact of_decide_eq_true h

/-! ## The commands of the round trip -/

theorem decode_encode_winWr {w : Width} {v : Data} (h : w.holds v = true) :
    decode (encode (.winWr w v)) = .ok (.winWr w v) := by
  simp [decode, encode, Instr.cmd, Instr.wdata, Instr.wbytes, acceptTyped, acceptIf,
    Width.truncate_of_holds h]

theorem decode_encode_winSeek (c : Half) : decode (encode (.winSeek c)) = .ok (.winSeek c) := by
  simp [decode, encode, Instr.cmd, Instr.wbytes, acceptIf]

theorem decode_encode_winRd (w : Width) : decode (encode (.winRd w)) = .ok (.winRd w) := by
  simp [decode, encode, Instr.cmd, Instr.wbytes, acceptTyped, acceptIf]

/-- A typed read returns the value whose bytes stand at the cursor (41_window.md R127). -/
theorem effectOf_winRd_rdata {w : Width} {v : Data} {m : Memory} {s : State} (hm : m.wf = true)
    (hs : s.device = m.perform (writesFrom s.base (bytesOf w.bytes v))) (hv : w.holds v = true) :
    (effectOf (.winRd w) s).rdata = v := by
  calc (effectOf (.winRd w) s).rdata
      = (s.memRead (s.base + 0) w.bytes).1 := rfl
    _ = valueOf ((bytesOf w.bytes v).take w.bytes) := State.memRead_of_writesFrom hm hs (by simp)
    _ = valueOf (bytesOf w.bytes v) := by rw [List.take_of_length_le (by simp)]
    _ = v := valueOf_bytesOf (Width.toNat_lt_of_holds hv)

/-- A transfer that fits passes the checks of a read (60_exceptions.md R178). -/
theorem TransferFits.readCheck {count : Nat} {s : State} (h : TransferFits count s) :
    readCheck count s = .run := by
  obtain ⟨hv, hroom, hdev⟩ := h
  exact readCheck_run.2 ⟨hv, State.not_exhausted_iff.2 hroom, State.not_pastDevice_iff.2 hdev⟩

/-- A write that fits a writable window passes its checks (60_exceptions.md R178). -/
theorem TransferFits.checkOf_write {i : Instr} {s : State} (h : TransferFits i.count s)
    (hi : i.isWrite = true) (hw : s.writable = true) : checkOf i s = .run := by
  obtain ⟨hv, hroom, hdev⟩ := h
  have hcheck := writeCheck_run.2
    ⟨hv, hw, State.not_exhausted_iff.2 hroom, State.not_pastDevice_iff.2 hdev⟩
  cases i with
  | winWr _ _ | winWrb _ => exact hcheck
  | _ => cases hi

/-- The effect of a write: the device as its accesses leave it, and the advance of the cursor
(41_window.md R128, R130). -/
theorem effectOf_write {i : Instr} (hi : i.isWrite = true) (s : State) :
    effectOf i s =
      (({ s with
          device := s.device.perform (accessesOf i s)
          accesses := s.accesses ++ accessesOf i s } : State).advance i.count).finishOk := by
  cases i with
  | winWr w v =>
    rw [effectOf, State.memWrite, State.writeBytes_state]
    rfl
  | winWrb bytes =>
    rw [effectOf, State.writeBytes_state]
    rfl
  | _ => cases hi

/-- A write that fits, from an unfaulted block: the whole state it leaves (41_window.md R128, R130). -/
theorem exec_write {i : Instr} {s : State} (hi : i.isWrite = true) (hf : s.fault = false)
    (hw : s.writable = true) (hfit : TransferFits i.count s) :
    exec i s = .next
      { ({ s with
          device := s.device.perform (accessesOf i s)
          cursor := s.cursor + BitVec.ofNat 16 i.count } : State).answered 0 with
        accesses := accessesOf i s } := by
  rw [exec_run hf (hfit.checkOf_write hi hw), effectOf_write hi]
  rfl

/-- A seek inside the window, from an unfaulted block: the whole state it leaves (41_window.md R124). -/
theorem exec_winSeek {c : Half} {s : State} (hf : s.fault = false) (hv : s.valid = true)
    (hc : c.toNat ≤ s.length.toNat) :
    exec (.winSeek c) s = .next (({ s with cursor := c } : State).answered 0) :=
  exec_run hf (seekCheck_run.2 ⟨hv, hc⟩)

/-- A write that fits and a seek back to the old cursor, as the host's next two commands, leave only the
device as the write's accesses do (20_memory.md R61). -/
theorem runSteps_write_seek {i : Instr} {s : State} {rest : List Input} (hi : i.isWrite = true)
    (hd : decode (encode i) = .ok i) (hf : s.fault = false) (hw : s.writable = true)
    (hfit : TransferFits i.count s)
    (hs : s.inputs = issue [i, .winSeek s.cursor] ++ rest) (k : Nat) :
    runSteps (k + 2) s = runSteps k (({ s with
      device := s.device.perform (accessesOf i s), inputs := rest } : State).answered 0) := by
  rw [runSteps_issued hs hd (exec_write hi hf hw hfit)]
  obtain ⟨hv, hroom, _⟩ := hfit
  refine runSteps_issued rfl (decode_encode_winSeek s.cursor) (exec_winSeek ?_ ?_ ?_) k
  · exact hf
  · exact hv
  · exact Nat.le_of_add_right_le hroom

/-! ## The statements of 20_memory.md -/

/-- Settles O42: only an effect changes the device, and does so by its accesses. -/
theorem deviceIsWhatTheWritesLeft : Obligations.DeviceIsWhatTheWritesLeft :=
  fun _ _ _ => exec_device

/-- Settles O47: the two states differ in what no CRC command reads. -/
theorem crcCommandsIgnoreTheWindowAndDevice : Obligations.CrcCommandsIgnoreTheWindowAndDevice :=
  fun _ s o hi => exec_withMemoryOf hi s o

/-- Settles O50: an access stands for a transfer that passed its checks, so it lies in the window; the
bytes that change are written, and no write passes its checks without `WRITABLE`. -/
theorem windowConfinesDeviceAccess : Obligations.WindowConfinesDeviceAccess := by
  intro i s t hwin hdev ht
  refine ⟨?_, ?_, exec_device_of_not_writable ht⟩
  · intro x hx
    rcases exec_accesses ht with hnil | ⟨hacc, hc⟩
    · simp [hnil] at hx
    · rw [hacc] at hx
      obtain ⟨hv, hlow, hhigh⟩ := addr_in_window_of_mem_accessesOf hc hx
      obtain ⟨_, hend, _⟩ := hwin.2 hv
      exact ⟨hv, hlow, hhigh, addr_lt_of_mem_accessesOf hc hx, by omega⟩
  · intro a ha
    constructor
    · by_contra hw
      exact ha (congrArg (Memory.read · a)
        (exec_device_of_not_writable ht (Bool.eq_false_iff.2 hw)))
    · rw [State.byteAt, exec_device ht] at ha
      exact Memory.exists_write_of_read_perform_ne hdev ha

/-- Settles O52: where the byte is the same already, writing it changes no byte. -/
theorem updateLeavesTheBytesOfWrite : Obligations.UpdateLeavesTheBytesOfWrite := by
  intro m a v hm b
  unfold Memory.update
  split
  · next hsame =>
    rw [Memory.read_write hm]
    split
    · next hab => rw [← hab, hsame]
    · rfl
  · rfl

/-- Settles O53: each read gives a part of the four bytes written. -/
theorem mixedWidthAccessIsLittleEndian : Obligations.MixedWidthAccessIsLittleEndian := by
  intro s a hdev
  have hread (k n : Nat) (hk : k + n ≤ 4) := State.memRead_memWrite hdev a 0x11223344 hk
  refine ⟨(hread 0 2 (by decide)).trans ?_, (hread 2 2 (by decide)).trans ?_,
    (hread 0 1 (by decide)).trans ?_⟩ <;> decide

/-- Settles O54: the write and the seek back leave the transfer fitting and the value's bytes at the
cursor, so the read puts the value together again. -/
theorem typedReadReturnsWhatWasWritten : Obligations.TypedReadReturnsWhatWasWritten := by
  intro w v s rest hv hinv hf hw hfit hs
  have hback := runSteps_write_seek (i := .winWr w v) (rest := issue [.winRd w] ++ rest) rfl
    (decode_encode_winWr hv) hf hw hfit hs 1
  have hread := runSteps_issued (s := ({ s with
      device := s.device.perform (accessesOf (.winWr w v) s)
      inputs := issue [.winRd w] ++ rest } : State).answered 0)
    rfl (decode_encode_winRd w) (exec_run hf (TransferFits.readCheck hfit)) 0
  exact ⟨_, hback.trans hread, effectOf_status _ _,
    effectOf_winRd_rdata hinv.canonical rfl hv, effectOf_inputs _ _⟩

/-- Settles O38: an address below `DEV_N` is written, any other stops the machine. -/
theorem hostWriteChangesOneByte : Obligations.HostWriteChangesOneByte := by
  intro s a v rest hdev hs
  rw [step_cons hs, takeInput]
  constructor
  · intro ha
    refine ⟨_, hostWrite_inside (s := { s with inputs := rest }) ha v, fun b => ?_, rfl⟩
    simp only [State.byteAt, Memory.read_write hdev, eq_comm]
  · exact fun ha => hostWrite_outside (s := { s with inputs := rest }) ha v

end Sys2Proof.Machine
end

section
/-! SUPPORT. The decoder and the encoder against each other and against the opcode map, and what a source
line assembles to; then the statements of 30_encoding.md. -/

namespace Sys2Proof

/-! ## Operands in their ranges -/

/-- The width fields that stand for a width (30_encoding.md R86). -/
theorem Width.exists_eq_field_iff {n : BitVec 8} :
    (∃ w : Width, n = w.field) ↔ n = 1 ∨ n = 2 ∨ n = 4 ∨ n = 8 := by
  constructor
  · rintro ⟨w, rfl⟩
    cases w <;> decide
  · rintro (h | h | h | h)
    · exact ⟨.w1, h⟩
    · exact ⟨.w2, h⟩
    · exact ⟨.w4, h⟩
    · exact ⟨.w8, h⟩

/-- A number below `2^(8w)` is a value of the width (30_encoding.md R89). -/
theorem Width.holds_ofNat {w : Width} {v : Nat} (h : v < 2 ^ (8 * w.bytes)) :
    w.holds (BitVec.ofNat 64 v) = true := by
  cases w with
  | w8 => rfl
  | w1 | w2 | w4 => exact decide_eq_true (Nat.lt_of_le_of_lt (Nat.mod_le v _) h)

/-- The length of a byte list that `win.wrb` can carry fits in the word's `a` (30_encoding.md R80). -/
theorem Instr.length_mod_of_wellFormed {bytes : List Byte}
    (h : (Instr.winWrb bytes).wellFormed = true) : bytes.length % 65536 = bytes.length :=
  Nat.mod_eq_of_lt (Nat.lt_succ_of_le (Instr.wellFormed_winWrb.1 h))

/-! ## Decoding an encoding -/

/-- A byte has no bits above it: those of `a` in the word of `crc.app` are 0 (30_encoding.md R84). -/
theorem extractLsb'_above_byte (b : Byte) : b.extractLsb' 8 8 = 0 := by
  apply BitVec.eq_of_getLsbD_eq
  intro k _
  simp

/-- Decoding the transaction of a well-formed command gives the command, operand by operand. -/
theorem decode_encode {i : Instr} (h : i.wellFormed = true) : decode (encode i) = .ok i := by
  cases i with
  | crcApp b =>
    simp [decode, encode, Instr.cmd, Instr.wbytes, acceptIf, extractLsb'_above_byte,
      BitVec.extractLsb'_setWidth_of_le, BitVec.extractLsb'_eq_self]
  | crcLd v | winOpenR _ v | winOpenRw _ v =>
    simp [decode, encode, Instr.cmd, Instr.wdata, Instr.wbytes, acceptIf,
      BitVec.extractLsb'_setWidth_of_le, BitVec.extractLsb'_eq_self]
  | winSeek c => exact Machine.decode_encode_winSeek c
  | winRd w => exact Machine.decode_encode_winRd w
  | winWr w v => exact Machine.decode_encode_winWr h
  | winRdb k => simp [decode, encode, Instr.cmd, Instr.wbytes, acceptIf]
  | winWrb bytes =>
    simp [decode, encode, Instr.cmd, Instr.wbytes, acceptIf, Instr.length_mod_of_wellFormed h]
  | _ => rfl

/-! ## The word of a defined transaction -/

/-- The command is well-formed, and its encoding has the word and the byte list of the transaction. -/
def Instr.Matches (i : Instr) (tx : Transaction) : Prop :=
  i.wellFormed = true ∧ i.cmd = tx.cmd ∧ i.wbytes = tx.wbytes

theorem cmdWord_of_fields {cmd : Word} {a : Half} {n op : BitVec 8} (hop : opField cmd = op)
    (hn : nField cmd = n) (ha : aField cmd = a) : cmdWord a n op = cmd := by
  rw [← hop, ← hn, ← ha, cmdWord_fields]

/-- A command with no operand in the word. -/
theorem matches_of_plain {tx : Transaction} {i j : Instr} {op : BitVec 8}
    (hop : opField tx.cmd = op)
    (h : acceptIf (nField tx.cmd == 0 && aField tx.cmd == 0) tx.wbytes.isEmpty i = .ok j)
    (hcmd : i.cmd = cmdWord 0 0 op) (hbytes : i.wbytes = []) (hwf : i.wellFormed = true) :
    j.Matches tx := by
  obtain ⟨hclear, hempty, rfl⟩ := acceptIf_ok.1 h
  obtain ⟨hn, ha⟩ : nField tx.cmd = 0 ∧ aField tx.cmd = 0 := by simpa using hclear
  exact ⟨hwf, hcmd.trans (cmdWord_of_fields hop hn ha),
    hbytes.trans (List.isEmpty_iff.1 hempty).symm⟩

/-- A command whose operand is the word's `a`. -/
theorem matches_of_a {tx : Transaction} {i j : Instr} {op : BitVec 8}
    (hop : opField tx.cmd = op) (h : acceptIf (nField tx.cmd == 0) tx.wbytes.isEmpty i = .ok j)
    (hcmd : i.cmd = cmdWord (aField tx.cmd) 0 op) (hbytes : i.wbytes = [])
    (hwf : i.wellFormed = true) : j.Matches tx := by
  obtain ⟨hn, hempty, rfl⟩ := acceptIf_ok.1 h
  exact ⟨hwf, hcmd.trans (cmdWord_of_fields hop (beq_iff_eq.1 hn) rfl),
    hbytes.trans (List.isEmpty_iff.1 hempty).symm⟩

/-- A command whose operand is the word's width field. -/
theorem matches_of_typed {tx : Transaction} {make : Width → Instr} {j : Instr} {op : BitVec 8}
    (hop : opField tx.cmd = op) (h : acceptTyped tx make = .ok j)
    (hcmd : ∀ w, (make w).cmd = cmdWord 0 w.field op) (hbytes : ∀ w, (make w).wbytes = [])
    (hwf : ∀ w, (make w).wellFormed = true) : j.Matches tx := by
  obtain ⟨w, hn, ha, hempty, rfl⟩ := acceptTyped_ok.1 h
  exact ⟨hwf w, (hcmd w).trans (cmdWord_of_fields hop hn ha), (hbytes w).trans hempty.symm⟩

/-- A half-word whose upper byte is 0 is its lower byte. -/
theorem setWidth_lower_of_upper {a : Half} (h : a.extractLsb' 8 8 = 0) :
    (a.extractLsb' 0 8).setWidth 16 = a := by
  calc (a.extractLsb' 0 8).setWidth 16
      = a.extractLsb' 8 8 ++ a.extractLsb' 0 8 := by
        rw [h]
        exact BitVec.setWidth_eq_append (by decide)
    _ = a := BitVec.extractLsb'_append_extractLsb'

/-- Every bit of a defined word is fixed or an operand, arm by arm of the decoder: the word's fields are
those of its command (30_encoding.md R82–R84, R87). -/
theorem matches_of_decode {tx : Transaction} {i : Instr} (h : decode tx = .ok i) : i.Matches tx := by
  unfold decode at h
  simp only at h
  split at h
  · exact matches_of_plain ‹_› h rfl rfl rfl
  · exact matches_of_plain ‹_› h rfl rfl rfl
  · next hop =>
    obtain ⟨hclear, hempty, rfl⟩ := acceptIf_ok.1 h
    obtain ⟨hn, hupper⟩ : nField tx.cmd = 0 ∧ (aField tx.cmd).extractLsb' 8 8 = 0 := by
      simpa using hclear
    exact ⟨rfl, cmdWord_of_fields hop hn (setWidth_lower_of_upper hupper).symm,
      (List.isEmpty_iff.1 hempty).symm⟩
  · exact matches_of_plain ‹_› h rfl rfl rfl
  · exact matches_of_plain ‹_› h rfl rfl rfl
  · exact matches_of_plain ‹_› h rfl rfl rfl
  · exact matches_of_a ‹_› h rfl rfl rfl
  · exact matches_of_a ‹_› h rfl rfl rfl
  · exact matches_of_plain ‹_› h rfl rfl rfl
  · exact matches_of_a ‹_› h rfl rfl rfl
  · exact matches_of_plain ‹_› h rfl rfl rfl
  · exact matches_of_plain ‹_› h rfl rfl rfl
  · exact matches_of_typed ‹_› h (fun _ => rfl) (fun _ => rfl) fun _ => rfl
  · exact matches_of_typed ‹_› h (fun _ => rfl) (fun _ => rfl)
      fun w => Width.holds_truncate w tx.wdata
  · exact matches_of_a ‹_› h rfl rfl rfl
  · next hop =>
    obtain ⟨hn, hlen, rfl⟩ := acceptIf_ok.1 h
    have hlen : tx.wbytes.length = (aField tx.cmd).toNat := beq_iff_eq.1 hlen
    have ha : aField tx.cmd = BitVec.ofNat 16 tx.wbytes.length := by simp [hlen]
    exact ⟨Instr.wellFormed_winWrb.2 (by omega), cmdWord_of_fields hop (beq_iff_eq.1 hn) ha, rfl⟩
  · exact matches_of_plain ‹_› h rfl rfl rfl
  · exact matches_of_plain ‹_› h rfl rfl rfl
  · cases h

/-! ## The rows of the opcode map -/

/-- The word of every command selects the command's row (30_encoding.md R83). -/
theorem row_selects_cmd (i : Instr) : i.row.selects i.cmd = true := by
  cases i with
  | nop => exact Laws.EncodedWordInRow.nop
  | crcInit => exact Laws.EncodedWordInRow.crcInit
  | crcApp b => exact Laws.EncodedWordInRow.crcApp b
  | crcVal => exact Laws.EncodedWordInRow.crcVal
  | crcAcc => exact Laws.EncodedWordInRow.crcAcc
  | crcLd v => exact Laws.EncodedWordInRow.crcLd v
  | winOpenR start len => exact Laws.EncodedWordInRow.winOpenR start len
  | winOpenRw start len => exact Laws.EncodedWordInRow.winOpenRw start len
  | winClose => exact Laws.EncodedWordInRow.winClose
  | winSeek c => exact Laws.EncodedWordInRow.winSeek c
  | winTell => exact Laws.EncodedWordInRow.winTell
  | winAvail => exact Laws.EncodedWordInRow.winAvail
  | winRd w => exact Laws.EncodedWordInRow.winRd w
  | winWr w v => exact Laws.EncodedWordInRow.winWr w v
  | winRdb k => exact Laws.EncodedWordInRow.winRdb k
  | winWrb bytes => exact Laws.EncodedWordInRow.winWrb bytes
  | winInfo => exact Laws.EncodedWordInRow.winInfo
  | blkFstat => exact Laws.EncodedWordInRow.blkFstat

/-- The rows of the opcode map are the rows of the commands (30_encoding.md R83). -/
theorem mem_opcodeRows {r : OpRow} : r ∈ opcodeRows ↔ ∃ i : Instr, i.row = r := by
  constructor
  · intro h
    simp only [opcodeRows, List.mem_append, List.mem_cons, List.not_mem_nil, or_false, or_assoc] at h
    rcases h with h | h | h | h | h | h | h | h | h | h | h | h | h | h | h | h | h | h <;>
      exact ⟨_, h.symm⟩
  · rintro ⟨i, rfl⟩
    cases i <;> simp [opcodeRows, Instr.row]

/-- Where the mask is all ones, a masked word has the bits it is compared with. -/
theorem extractLsb'_of_masked {w start len : Nat} {x mask bits : BitVec w} (h : x &&& mask = bits)
    (hmask : mask.extractLsb' start len = BitVec.allOnes len) :
    x.extractLsb' start len = bits.extractLsb' start len := by
  rw [← h, BitVec.extractLsb'_and, hmask, BitVec.and_allOnes]

/-- Where the mask is all ones, a masked word that is compared with 0 is 0. -/
theorem extractLsb'_eq_zero_of_masked {w start len : Nat} {x mask bits : BitVec w}
    (h : x &&& mask = bits) (hmask : mask.extractLsb' start len = BitVec.allOnes len)
    (hbits : bits.extractLsb' start len = 0) : x.extractLsb' start len = 0 :=
  (extractLsb'_of_masked h hmask).trans hbits

/-- A row that selects a word has the word's opcode (30_encoding.md R83). -/
theorem opField_of_mem_opcodeRows {cmd : Word} {r : OpRow} (hr : r ∈ opcodeRows)
    (h : cmd &&& r.mask = r.matchBits) : opField cmd = opField r.matchBits := by
  have hmask : ∀ r ∈ opcodeRows, opField r.mask = BitVec.allOnes 8 := by decide
  exact extractLsb'_of_masked h (hmask r hr)

/-- A word that a command's row selects has the command's opcode. -/
theorem opField_of_row {cmd : Word} (i : Instr) (h : cmd &&& i.row.mask = i.row.matchBits) :
    opField cmd = opField i.cmd := by
  have hr := mem_opcodeRows.2 ⟨i, rfl⟩
  rw [opField_of_mem_opcodeRows hr h, opField_of_mem_opcodeRows hr (beq_iff_eq.1 (row_selects_cmd i))]

/-- The width and the byte list of an encoding are those its opcode asks for
(30_encoding.md R86, R87). -/
theorem encode_operands {i : Instr} (h : i.wellFormed = true) :
    (opField i.cmd = 0x16 ∨ opField i.cmd = 0x17 →
      nField i.cmd = 1 ∨ nField i.cmd = 2 ∨ nField i.cmd = 4 ∨ nField i.cmd = 8) ∧
    (if opField i.cmd = 0x19 then i.wbytes.length = (aField i.cmd).toNat else i.wbytes = []) := by
  cases i with
  | winRd w | winWr w v =>
    have hw := Width.exists_eq_field_iff.1 ⟨w, rfl⟩
    simpa [Instr.cmd, Instr.wbytes] using hw
  | winWrb bytes => simp [Instr.cmd, Instr.wbytes, Instr.length_mod_of_wellFormed h]
  | _ => simp [Instr.cmd, Instr.wbytes]

/-- A transaction whose word a row selects, with a legal width and byte list, is defined. -/
theorem exists_decode_of_row {tx : Transaction} {r : OpRow} (hr : r ∈ opcodeRows)
    (hsel : tx.cmd &&& r.mask = r.matchBits)
    (hwidth : opField tx.cmd = 0x16 ∨ opField tx.cmd = 0x17 →
      nField tx.cmd = 1 ∨ nField tx.cmd = 2 ∨ nField tx.cmd = 4 ∨ nField tx.cmd = 8)
    (hbytes : if opField tx.cmd = 0x19 then tx.wbytes.length = (aField tx.cmd).toNat
      else tx.wbytes = []) : ∃ i, decode tx = .ok i := by
  obtain ⟨i, rfl⟩ := mem_opcodeRows.1 hr
  have hop := opField_of_row i hsel
  cases i with
  | crcApp b =>
    simp only [Instr.row, Instr.cmd, opField_cmdWord] at hop hsel
    have hn : nField tx.cmd = 0 := extractLsb'_eq_zero_of_masked hsel (by decide) (by decide)
    have ha := BitVec.extractLsb'_and.symm.trans (congrArg aField hsel)
    have hupper : (aField tx.cmd).extractLsb' 8 8 = 0 :=
      extractLsb'_eq_zero_of_masked ha (by decide) (by decide)
    have hempty : tx.wbytes = [] := by simpa [hop] using hbytes
    simp [decode, acceptIf, hop, hn, hupper, hempty]
  | winOpenR _ _ | winOpenRw _ _ | winSeek _ | winRdb _ =>
    simp only [Instr.row, Instr.cmd, opField_cmdWord] at hop hsel
    have hn : nField tx.cmd = 0 := extractLsb'_eq_zero_of_masked hsel (by decide) (by decide)
    have hempty : tx.wbytes = [] := by simpa [hop] using hbytes
    simp [decode, acceptIf, hop, hn, hempty]
  | winRd _ | winWr _ _ =>
    simp only [Instr.row, Instr.cmd, opField_cmdWord] at hop hsel
    obtain ⟨w, hn⟩ := Width.exists_eq_field_iff.2 (hwidth (by simp [hop]))
    have ha : aField tx.cmd = 0 := extractLsb'_eq_zero_of_masked hsel (by decide) (by decide)
    have hempty : tx.wbytes = [] := by simpa [hop] using hbytes
    simp [decode, acceptTyped, acceptIf, hop, hn, ha, hempty]
  | winWrb _ =>
    simp only [Instr.row, Instr.cmd, opField_cmdWord] at hop hsel
    have hn : nField tx.cmd = 0 := extractLsb'_eq_zero_of_masked hsel (by decide) (by decide)
    have hlen : tx.wbytes.length = (aField tx.cmd).toNat := by simpa [hop] using hbytes
    simp [decode, acceptIf, hop, hn, hlen]
  | _ =>
    simp only [Instr.row, Instr.cmd, opField_cmdWord] at hop hsel
    have hn : nField tx.cmd = 0 := extractLsb'_eq_zero_of_masked hsel (by decide) (by decide)
    have ha : aField tx.cmd = 0 := extractLsb'_eq_zero_of_masked hsel (by decide) (by decide)
    have hempty : tx.wbytes = [] := by simpa [hop] using hbytes
    simp [decode, acceptIf, hop, hn, ha, hempty]

end Sys2Proof

namespace Sys2Proof.Machine

/-! ## Source lines -/

/-- The commands of a source line are well-formed: an operand out of its range is an error
(30_encoding.md R89). -/
theorem wellFormed_of_mem_commands {line : AsmLine} {is : List Instr}
    (h : line.commands = some is) : ∀ i ∈ is, i.wellFormed = true := by
  cases line with
  | crcApp _ | crcLd _ | winSeek _ | winRdb _ | winRd _ | crcBytes _ | crcStr _ =>
    obtain ⟨_, _, his⟩ := Option.bind_eq_some_iff.1 h
    cases his
    simp [Instr.wellFormed]
  | winOpenR _ _ | winOpenRw _ _ =>
    obtain ⟨_, _, hlen⟩ := Option.bind_eq_some_iff.1 h
    obtain ⟨_, _, his⟩ := Option.bind_eq_some_iff.1 hlen
    cases his
    simp [Instr.wellFormed]
  | winWr _ v =>
    obtain ⟨w, _, his⟩ := Option.bind_eq_some_iff.1 h
    split at his
    · next hv =>
      cases his
      simpa [Instr.wellFormed] using Width.holds_ofNat hv
    · cases his
  | winWrb k _ =>
    obtain ⟨bytes, _, his⟩ := Option.bind_eq_some_iff.1 h
    split at his
    · next hk =>
      obtain ⟨hlen, hmax⟩ := hk
      cases his
      simpa using Instr.wellFormed_winWrb.2 (hlen.trans_le hmax)
    · cases his
  | _ =>
    cases h
    simp [Instr.wellFormed]

/-- Numbers below the limit are the bytes of a list. -/
theorem byteOperands_of_lt {limit : Nat} {vs : List Nat} (h : ∀ v ∈ vs, v < limit) :
    byteOperands limit vs = some (vs.map (BitVec.ofNat 8)) :=
  if_pos (by simpa using h)

/-! ## The statements of 30_encoding.md -/

/-- Settles O24: every field of the word comes back, and every operand from its place. -/
theorem decodeOfEncodeIsTheCommand : Obligations.DecodeOfEncodeIsTheCommand :=
  fun _ => decode_encode

/-- Settles O25: each opcode's reserved bits are 0, and its operand bits are the command's. -/
theorem definedWordIsTheWordOfItsCommand : Obligations.DefinedWordIsTheWordOfItsCommand :=
  fun _ _ => matches_of_decode

/-- Settles O26: a defined word is the word of its command, which selects the command's row. -/
theorem decodeFollowsTheOpcodeMap : Obligations.DecodeFollowsTheOpcodeMap := by
  intro tx
  constructor
  · rintro ⟨i, hi⟩
    obtain ⟨hwf, hcmd, hbytes⟩ := matches_of_decode hi
    rw [← hcmd, ← hbytes]
    exact ⟨⟨i.row, mem_opcodeRows.2 ⟨i, rfl⟩, beq_iff_eq.1 (row_selects_cmd i)⟩, encode_operands hwf⟩
  · rintro ⟨⟨r, hr, hsel⟩, hwidth, hbytes⟩
    exact exists_decode_of_row hr hsel hwidth hbytes

/-- Settles O27: a row fixes the opcode field, and no two rows fix it to the same value. -/
theorem opcodeRowsAreDisjoint : Obligations.OpcodeRowsAreDisjoint := by
  have hops : opcodeRows.Pairwise fun r r' => opField r.matchBits ≠ opField r'.matchBits := by
    decide
  refine hops.imp_of_mem fun hr hr' hne cmd hsel => hne ?_
  rw [← opField_of_mem_opcodeRows hr (beq_iff_eq.1 hsel.1),
    opField_of_mem_opcodeRows hr' (beq_iff_eq.1 hsel.2)]

/-- Settles O29: the transactions are the encodings of well-formed commands. -/
theorem assembledLinesAreDefined : Obligations.AssembledLinesAreDefined := by
  intro line txs h tx htx
  obtain ⟨is, his, rfl⟩ := Option.map_eq_some_iff.1 h
  obtain ⟨i, hi, rfl⟩ := List.mem_map.1 htx
  exact ⟨i, decode_encode (wellFormed_of_mem_commands his i hi), rfl⟩

/-- Settles O30: the numbers of a byte list are in range and taken in order. -/
theorem pseudoInstructionsExpand : Obligations.PseudoInstructionsExpand := by
  refine ⟨fun bytes => ?_, fun codes hcodes => ?_, rfl, rfl, rfl, rfl, fun _ => rfl, fun _ => rfl,
    fun _ => rfl, fun _ => rfl, rfl, rfl⟩
  · have hlt : ∀ v ∈ bytes.map BitVec.toNat, v < 256 := by
      simpa using fun b _ => b.isLt
    simp [assemble, AsmLine.commands, byteOperands_of_lt hlt]
  · simp [assemble, AsmLine.commands, byteOperands_of_lt hcodes]

/-- Settles O44: however a command ends, its end writes the response from the registers. -/
theorem responseCarriesTheRegisters : Obligations.ResponseCarriesTheRegisters := by
  intro i s t h
  rcases exec_next_cases h with ⟨st, rfl⟩ | ⟨_, rfl⟩ | ⟨c, _, rfl⟩
  · exact ⟨_, rfl, rfl, rfl, fun hne => absurd rfl hne⟩
  · refine ⟨_, effectOf_response i s.startCommand, (effectOf_status i _).symm, rfl, fun hne => ?_⟩
    refine ⟨?_, effectOf_status i _⟩
    cases i with
    | winRdb k => exact ⟨k, rfl⟩
    | _ => exact absurd rfl hne
  · exact ⟨_, rfl, rfl, rfl, fun hne => absurd rfl hne⟩

/-- Settles O28: the assembler and the decoder run on the ten rows of R91. -/
theorem workedEncodingsDecode : Obligations.WorkedEncodingsDecode := by
  unfold Obligations.WorkedEncodingsDecode
  decide

end Sys2Proof.Machine
end

section
/-! SUPPORT. The CRC function as steps of bits (40_crc.md R100–R103), and what a run of CRC commands
leaves in the block; then the statements of 40_crc.md. -/

namespace Sys2Proof.Machine

/-! ## The bit step -/

/-- The bit step is linear over XOR. -/
theorem crcBit_xor (c d : Word) : crcBit (c ^^^ d) = crcBit c ^^^ crcBit d := by
  have hpoly : (if c.getLsbD 0 ^^ d.getLsbD 0 then poly else 0) =
      (if c.getLsbD 0 then poly else 0) ^^^ (if d.getLsbD 0 then poly else 0) := by
    cases c.getLsbD 0 <;> cases d.getLsbD 0 <;> simp
  simp only [crcBit, BitVec.getLsbD_xor, BitVec.ushiftRight_xor_distrib, hpoly]
  ac_rfl

theorem iterate_crcBit_xor (n : Nat) (c d : Word) :
    crcBit^[n] (c ^^^ d) = crcBit^[n] c ^^^ crcBit^[n] d := by
  induction n with
  | zero => rfl
  | succ n ih => simp only [Function.iterate_succ_apply', ih, crcBit_xor]

/-- Bits that are 0 are shifted out and nothing else happens: the polynomial stays out. -/
theorem iterate_crcBit_of_low_clear {n : Nat} {c : Word} (h : ∀ k < n, c.getLsbD k = false) :
    crcBit^[n] c = c >>> n := by
  induction n with
  | zero => simp
  | succ n ih =>
    have hbit : (c >>> n).getLsbD 0 = false := by simpa using h n (Nat.lt_succ_self n)
    rw [Function.iterate_succ_apply', ih fun k hk => h k (Nat.lt_succ_of_lt hk), crcBit, hbit]
    simp [BitVec.shiftRight_add]

/-- A word is its low nibble and the bits above it. -/
theorem low_nibble_xor_above (c : Word) :
    (c.extractLsb' 0 4).setWidth 32 ^^^ (c >>> 4) <<< 4 = c := by
  apply BitVec.eq_of_getLsbD_eq
  intro k hk
  simp only [BitVec.getLsbD_xor, BitVec.getLsbD_setWidth, BitVec.getLsbD_extractLsb',
    BitVec.getLsbD_shiftLeft, BitVec.getLsbD_ushiftRight]
  rcases Nat.lt_or_ge k 4 with h | h
  · simp [h, hk]
  · simp [hk, show ¬k < 4 by omega, show 4 + (k - 4) = k by omega]

/-! ## The nibble step -/

/-- Four bit steps are one look into the table (10_state.md R22). -/
theorem iterate_four_crcBit (c : Word) :
    crcBit^[4] c = tableEntry (c.extractLsb' 0 4) ^^^ c >>> 4 := by
  have habove : crcBit^[4] ((c >>> 4) <<< 4) = c >>> 4 := by
    rw [iterate_crcBit_of_low_clear fun k hk => by simp [hk]]
    apply BitVec.eq_of_getLsbD_eq
    intro k hk
    rcases Nat.lt_or_ge (4 + k) 32 with h | h
    · simp [h]
    · simp [BitVec.getLsbD_of_ge c (4 + k) h]
  calc crcBit^[4] c
      = crcBit^[4] ((c.extractLsb' 0 4).setWidth 32 ^^^ (c >>> 4) <<< 4) := by
        rw [low_nibble_xor_above]
    _ = tableEntry (c.extractLsb' 0 4) ^^^ c >>> 4 := by
        rw [iterate_crcBit_xor, ← tableEntriesAreFourBitSteps, habove]

/-- Four bit steps take in the low nibble of a word as the nibble step does, and leave the rest of
it, shifted down, to be taken in (40_crc.md R100). -/
theorem iterate_four_crcBit_xor (c d : Word) :
    crcBit^[4] (c ^^^ d) = nib c (d.extractLsb' 0 4) ^^^ d >>> 4 := by
  have hindex : (c ^^^ (d.extractLsb' 0 4).setWidth 32).extractLsb' 0 4 =
      (c ^^^ d).extractLsb' 0 4 := by
    apply BitVec.eq_of_getLsbD_eq
    intro k hk
    simp [hk, show k < 32 by omega]
  rw [iterate_four_crcBit, nib, hindex, BitVec.ushiftRight_xor_distrib, BitVec.xor_assoc]

/-- The nibble step is four bit steps of the accumulator and the nibble (40_crc.md R100). -/
theorem nib_eq_iterate_crcBit (c : Word) (x : BitVec 4) :
    nib c x = crcBit^[4] (c ^^^ x.setWidth 32) := by
  have hlow : (x.setWidth 32).extractLsb' 0 4 = x := by
    simp [BitVec.extractLsb'_setWidth_of_le, BitVec.extractLsb'_eq_self]
  have hrest : x.setWidth 32 >>> 4 = 0#32 := by
    apply BitVec.eq_of_getLsbD_eq
    intro k hk
    simp
  rw [iterate_four_crcBit_xor, hlow, hrest, BitVec.xor_zero]

/-- A byte without its low nibble is its high nibble (40_crc.md R101). -/
theorem setWidth_byte_ushiftRight (b : Byte) :
    b.setWidth 32 >>> 4 = (b.extractLsb' 4 4).setWidth 32 := by
  apply BitVec.eq_of_getLsbD_eq
  intro k hk
  rcases Nat.lt_or_ge k 4 with h | h
  · simp [h, hk, show 4 + k < 32 by omega]
  · simp [show ¬k < 4 by omega, BitVec.getLsbD_of_ge b (4 + k) (by omega)]

/-! ## The CRC of a sequence -/

/-- `Fold` goes on where it stopped (40_crc.md R103, R111). -/
theorem crcFold_append (c : Word) (p q : List Byte) :
    crcFold c (p ++ q) = crcFold (crcFold c p) q := by
  induction p generalizing c with
  | nil => rfl
  | cons b rest ih => exact ih (appendByte c b)

/-- `VALUE` of `VALUE` is the accumulator again (10_state.md R23). -/
theorem crcView_crcView (invert : Bool) (c : Word) : crcView invert (crcView invert c) = c := by
  cases invert with
  | false => rfl
  | true => exact BitVec.not_not

/-- The accumulator after "123456789", the eighteen table steps computed (40_crc.md R104). -/
theorem crcFold_check_digits :
    crcFold 0xFFFFFFFF [0x31, 0x32, 0x33, 0x34, 0x35, 0x36, 0x37, 0x38, 0x39] = 0x340BC6D9 := by
  simp [crcFold, appendByte, nib, tableEntry, crcTable]

/-! ## The CRC commands -/

/-- A CRC command in an unfaulted block has its effect (40_crc.md R110). -/
theorem exec_of_isCrc {i : Instr} {s : State} (hi : i.isCrc = true) (hf : s.fault = false) :
    exec i s = .next (effectOf i s.startCommand) :=
  exec_run hf (checkOf_of_isCrc hi s)

/-- A CRC command in a faulted block ends FAULTED (60_exceptions.md R175). -/
theorem exec_of_isCrc_faulted {i : Instr} {s : State} (hi : i.isCrc = true)
    (hf : s.fault = true) : exec i s = .next (s.answered 6) :=
  exec_faulted (by rintro rfl; cases hi) hf

theorem exec_crcInit {s : State} (hf : s.fault = false) :
    exec .crcInit s = .next (({ s with acc := 0xFFFFFFFF } : State).answered 0) :=
  exec_of_isCrc rfl hf

theorem exec_crcApp {s : State} (hf : s.fault = false) (b : Byte) :
    exec (.crcApp b) s = .next (({ s with acc := appendByte s.acc b } : State).answered 0) :=
  exec_of_isCrc rfl hf

theorem exec_crcVal {s : State} (hf : s.fault = false) :
    exec .crcVal s = .next (({ s with
      rdata := (crcView s.cfg.valueInvert s.acc).setWidth 64 } : State).answered 0) :=
  exec_of_isCrc rfl hf

theorem exec_crcLd {s : State} (hf : s.fault = false) (v : Word) :
    exec (.crcLd v) s = .next (({ s with acc := v } : State).answered 0) :=
  exec_of_isCrc rfl hf

/-- The word of `crc.app`: the byte stands in bits 23:16 (30_encoding.md R83). -/
theorem cmd_crcApp (b : Byte) : (Instr.crcApp b).cmd = (b.setWidth 32 <<< 16) ||| 0x02 := by
  simp [Instr.cmd, cmdWord]

/-- The decoder does not read `WDATA` for a command that has no operand there
(30_encoding.md R82). -/
theorem decode_cmd_of_isCrc {i : Instr} (hi : i.isCrc = true) (hld : ∀ v, i ≠ .crcLd v)
    (d : Data) : decode ⟨i.cmd, d, []⟩ = .ok i := by
  cases i with
  | crcInit | crcVal | crcAcc => simp [decode, Instr.cmd, acceptIf]
  | crcApp b =>
    simp [decode, Instr.cmd, acceptIf, extractLsb'_above_byte, BitVec.extractLsb'_setWidth_of_le,
      BitVec.extractLsb'_eq_self]
  | crcLd v => exact absurd rfl (hld v)
  | _ => cases hi

/-- The operand of `crc.ld` is the lower half of `WDATA` (30_encoding.md R82). -/
theorem decode_crcLd (v : Word) (d : Data) :
    decode ⟨(Instr.crcLd v).cmd, d, []⟩ = .ok (.crcLd (d.extractLsb' 0 32)) := by
  simp [decode, Instr.cmd, acceptIf]

/-! ## Runs of CRC commands -/

/-- One `crc.app` a byte, as the host's next commands after one that ended OK, folds the bytes into
`ACC` and changes nothing else (40_crc.md R103, R106). -/
theorem runSteps_crcApps (bytes : List Byte) {s : State} (hf : s.fault = false)
    (rest : List Input) (k : Nat) :
    runSteps (bytes.length + k)
        (({ s with inputs := issue (bytes.map .crcApp) ++ rest } : State).answered 0) =
      runSteps k (({ s with acc := crcFold s.acc bytes, inputs := rest } : State).answered 0) := by
  induction bytes generalizing s with
  | nil => rw [List.length_nil, Nat.zero_add]; rfl
  | cons b bs ih =>
    rw [List.length_cons, Nat.add_right_comm,
      runSteps_issued rfl (decode_encode rfl) (exec_crcApp (by exact hf) b)]
    exact ih (s := { s with acc := appendByte s.acc b }) hf

/-- A command that sets `ACC`, one `crc.app` a byte and `crc.val`, as the host's next commands: the
accumulator folds the bytes from the value set, `RDATA` is its `VALUE`, and nothing else changes
(40_crc.md R103, R111). -/
theorem runSteps_set_crcApps_crcVal {i : Instr} {c : Word} {bytes : List Byte} {s : State}
    {rest : List Input} (hd : decode (encode i) = .ok i)
    (hset : ∀ u : State, u.fault = false →
      exec i u = .next (({ u with acc := c } : State).answered 0))
    (hf : s.fault = false)
    (hs : s.inputs = issue (i :: bytes.map .crcApp ++ [.crcVal]) ++ rest) :
    runSteps (bytes.length + 2) s = .next (({ s with
      acc := crcFold c bytes
      rdata := (crcView s.cfg.valueInvert (crcFold c bytes)).setWidth 64
      inputs := rest } : State).answered 0) := by
  have hsplit : s.inputs = .command (encode i) ::
      (issue (bytes.map .crcApp) ++ (.command (encode .crcVal) :: rest)) := by
    simpa [issue] using hs
  rw [runSteps_issued (k := bytes.length + 1) hsplit hd (hset _ hf),
    runSteps_crcApps bytes (s := { s with acc := c }) hf]
  exact runSteps_issued rfl (decode_encode rfl) (exec_crcVal (by exact hf)) 0

/-! ## The statements of 40_crc.md -/

/-- Settles O20: four bit steps take in the low nibble and bring the high nibble down to where the
second nibble step takes it in. -/
theorem appendByteIsBitwise : Obligations.AppendByteIsBitwise := by
  intro c b
  have hlow : (b.setWidth 32).extractLsb' 0 4 = b.extractLsb' 0 4 :=
    BitVec.extractLsb'_setWidth_of_le (by decide)
  calc appendByte c b
      = crcBit^[4] (nib c (b.extractLsb' 0 4) ^^^ (b.extractLsb' 4 4).setWidth 32) :=
        nib_eq_iterate_crcBit _ _
    _ = crcBit^[4] (crcBit^[4] (c ^^^ b.setWidth 32)) := by
        rw [iterate_four_crcBit_xor c (b.setWidth 32), hlow, setWidth_byte_ushiftRight]
    _ = crcBit^[8] (c ^^^ b.setWidth 32) := (Function.iterate_add_apply crcBit 4 4 _).symm

/-- Settles O22: `crc.init` sets the accumulator that the sequence is folded into. -/
theorem portComputesTheCrcOfAnySequence : Obligations.PortComputesTheCrcOfAnySequence := by
  intro bytes s rest hf hs
  exact ⟨_, runSteps_set_crcApps_crcVal (decode_encode rfl) (fun _ => exec_crcInit) hf hs,
    rfl, rfl, rfl⟩

/-- Settles O23: the raw value of the stored word is the accumulator after `p`, and `Fold` goes on
from it. -/
theorem storedCrcContinuesOverMoreBytes : Obligations.StoredCrcContinuesOverMoreBytes := by
  intro p q stored raw s rest
  refine ⟨(crcFold_append _ p q).symm, fun hf hstored hraw hs => ?_⟩
  have hacc : raw = crcFold 0xFFFFFFFF p := by
    rw [hraw, hstored]
    exact crcView_crcView s.cfg.valueInvert _
  refine ⟨_, runSteps_set_crcApps_crcVal (decode_encode rfl)
    (fun _ hu => exec_crcLd hu raw) hf hs, rfl, rfl, ?_⟩
  rw [crcFold_append, ← hacc]
  rfl

/-- Settles O2: the effect sets the initial accumulator. -/
theorem crcInitSetsAccumulator : Obligations.CrcInitSetsAccumulator :=
  fun _ d => ⟨decode_cmd_of_isCrc (i := .crcInit) rfl nofun d, exec_crcInit,
    exec_of_isCrc_faulted rfl⟩

/-- Settles O3: the word is the command's own, and the byte step is its two nibble steps. -/
theorem crcAppendFoldsOneByte : Obligations.CrcAppendFoldsOneByte :=
  fun b _ d => ⟨cmd_crcApp b ▸ decode_cmd_of_isCrc (i := .crcApp b) rfl nofun d,
    fun hf => exec_crcApp hf b, exec_of_isCrc_faulted rfl⟩

/-- Settles O4: the view is the complement or the accumulator, by the parameter. -/
theorem crcValueReadsTheView : Obligations.CrcValueReadsTheView := by
  refine fun s d => ⟨decode_cmd_of_isCrc (i := .crcVal) rfl nofun d, fun hf hinvert => ?_,
    fun hf hinvert => ?_, exec_of_isCrc_faulted rfl⟩
  · rw [exec_crcVal hf, hinvert]
    rfl
  · rw [exec_crcVal hf, hinvert]
    rfl

/-- Settles O5: the effect reads `ACC` and no parameter. -/
theorem crcAccReadsTheAccumulator : Obligations.CrcAccReadsTheAccumulator :=
  fun _ d => ⟨decode_cmd_of_isCrc (i := .crcAcc) rfl nofun d, exec_of_isCrc rfl,
    exec_of_isCrc_faulted rfl⟩

/-- Settles O6: the decoder takes the lower half of `WDATA` as the operand. -/
theorem crcLoadWritesTheAccumulator : Obligations.CrcLoadWritesTheAccumulator :=
  fun _ d v => ⟨decode_crcLd v d, fun hf => exec_crcLd hf v, exec_of_isCrc_faulted rfl⟩

/-- Settles O21: the views are those of the two accumulators. -/
theorem crcCheckValues : Obligations.CrcCheckValues :=
  ⟨rfl, by decide, crcFold_check_digits, congrArg (crcView true) crcFold_check_digits,
    fun _ => rfl⟩

end Sys2Proof.Machine
end

section
/-! SUPPORT. The words of the window commands, their checks in the order of 60_exceptions.md R178, and
the whole state each of them leaves; then the statements of 41_window.md. -/

namespace Sys2Proof

/-! ## The words of the commands -/

theorem Width.bytes_le (w : Width) : w.bytes ≤ 8 := by
  cases w <;> decide

/-- The command with the operand that it reads from `WDATA`, where it reads one
(30_encoding.md R82). -/
def Instr.withWdata (i : Instr) (d : Data) : Instr :=
  match i with
  | .crcLd _ => .crcLd (d.extractLsb' 0 32)
  | .winOpenR start _ => .winOpenR start (d.extractLsb' 0 16)
  | .winOpenRw start _ => .winOpenRw start (d.extractLsb' 0 16)
  | .winWr w _ => .winWr w (w.truncate d)
  | .nop | .crcInit | .crcApp _ | .crcVal | .crcAcc | .winClose | .winSeek _ | .winTell | .winAvail
  | .winRd _ | .winRdb _ | .winWrb _ | .winInfo | .blkFstat => i

/-- The word and the byte list of a command decode to it with any `WDATA`, from which the decoder
takes the one operand that the word does not hold (30_encoding.md R82, R84, R87). -/
theorem decode_cmd (i : Instr) (h : i.wbytes.length ≤ 65535) (d : Data) :
    decode ⟨i.cmd, d, i.wbytes⟩ = .ok (i.withWdata d) := by
  cases i with
  | crcApp _ => exact Machine.decode_cmd_of_isCrc rfl (fun _ => Instr.noConfusion) d
  | crcLd v => exact Machine.decode_crcLd v d
  | winRd _ | winWr _ _ =>
    simp [decode, Instr.cmd, Instr.wbytes, Instr.withWdata, acceptTyped, acceptIf]
  | winWrb bytes =>
    have hlen : bytes.length % 65536 = bytes.length := Nat.mod_eq_of_lt (Nat.lt_succ_of_le h)
    simp [decode, Instr.cmd, Instr.wbytes, Instr.withWdata, acceptIf, hlen]
  | _ => simp [decode, Instr.cmd, Instr.wbytes, Instr.withWdata, acceptIf]

/-- A word whose `n` is 0: the half-word stands in bits 31:16 (30_encoding.md R81). -/
theorem cmdWord_a (a : Half) (op : BitVec 8) :
    cmdWord a 0 op = (a.setWidth 32 <<< 16) ||| op.setWidth 32 := by
  simp [cmdWord]

/-- A word whose `a` is 0: the byte stands in bits 15:8 (30_encoding.md R81). -/
theorem cmdWord_n (n op : BitVec 8) :
    cmdWord 0 n op = (n.setWidth 32 <<< 8) ||| op.setWidth 32 := by
  simp [cmdWord]

/-- The word of `win.wrb` holds the length of a byte list that the port can carry
(30_encoding.md R80, R87). -/
theorem cmd_winWrb {bytes : List Byte} (h : bytes.length ≤ 65535) :
    (Instr.winWrb bytes).cmd = (BitVec.ofNat 32 bytes.length <<< 16) ||| 0x19 := by
  have hlen : (BitVec.ofNat 16 bytes.length).setWidth 32 = BitVec.ofNat 32 bytes.length :=
    BitVec.setWidth_ofNat_of_le_of_lt (by decide) (Nat.lt_succ_of_le h)
  rw [Instr.cmd, cmdWord_a, hlen]
  rfl

end Sys2Proof

namespace Sys2Proof.Machine

/-! ## The checks of the window commands -/

/-- A command that needs a window checks for it first (60_exceptions.md R178, step 3a). -/
theorem exists_checkOf_eq_windowCheck {i : Instr} (hi : i.needsWindow = true) :
    ∃ next, checkOf i = windowCheck next := by
  cases i with
  | winSeek _ | winTell | winAvail | winRd _ | winWr _ _ | winRdb _ | winWrb _ => exact ⟨_, rfl⟩
  | _ => cases hi

/-- Without a window, a command that needs one ends NO_WINDOW (41_window.md R120). -/
theorem checkOf_of_needsWindow {i : Instr} {s : State} (hi : i.needsWindow = true)
    (hv : s.valid = false) : checkOf i s = .fail .noWindow := by
  obtain ⟨next, hnext⟩ := exists_checkOf_eq_windowCheck hi
  simp [hnext, windowCheck, hv]

/-- The checks of a window transfer (60_exceptions.md R178, steps 3a–3d). -/
theorem checkOf_of_isTransfer {i : Instr} (hi : i.isTransfer = true) (s : State) :
    checkOf i s = windowCheck (fun s =>
      if i.isWrite = true → s.writable = true then roomCheck i.count s else .fail .readOnly) s := by
  cases i with
  | winRd _ | winWr _ _ | winRdb _ | winWrb _ =>
    simp [checkOf, readCheck, writeCheck, Instr.isWrite, Instr.count]
  | _ => cases hi

/-- A check that ends a transfer does not end it OK (60_exceptions.md R178). -/
theorem code_ne_zero_of_checkOf_fail {i : Instr} {s : State} {st : Status}
    (hi : i.isTransfer = true) (h : checkOf i s = .fail st) : st.code ≠ 0 := by
  rw [checkOf_of_isTransfer hi, windowCheck, roomCheck] at h
  split_ifs at h <;> cases h <;> decide

/-- A command that needs no window ends with no failure status of its own (60_exceptions.md R178). -/
theorem needsWindow_of_checkOf_fail {i : Instr} {s : State} {st : Status}
    (h : checkOf i s = .fail st) : i.needsWindow = true := by
  cases i with
  | winOpenR a len | winOpenRw a len =>
    simp only [checkOf, openCheck] at h
    split at h <;> cases h
  | winSeek _ | winTell | winAvail | winRd _ | winWr _ _ | winRdb _ | winWrb _ => rfl
  | _ => cases h

/-! ## How a window command stops short -/

theorem exec_of_isWindow_faulted {i : Instr} {s : State} (hi : i.isWindow = true)
    (hf : s.fault = true) : exec i s = .next (s.answered 6) :=
  exec_faulted (by rintro rfl; cases hi) hf

theorem exec_of_needsWindow {i : Instr} {s : State} (hi : i.needsWindow = true)
    (hf : s.fault = false) (hv : s.valid = false) : exec i s = .next (s.answered 4) :=
  exec_fail hf (checkOf_of_needsWindow hi hv)

/-- A window transfer stops short in the order of its checks, and a fault records its word
(60_exceptions.md R174, R178). -/
theorem transferStops_cmd {i : Instr} {s : State} (hi : i.isTransfer = true)
    (hf : s.fault = false) : TransferStops i i.cmd i.count s := by
  refine ⟨fun hv => ?_, fun hv hwrite hw => ?_, fun hv hw hroom => ?_,
    fun hv hw hroom hone hdev => ?_⟩
  · refine exec_fail (st := .noWindow) hf ?_
    rw [checkOf_of_isTransfer hi]
    simp [windowCheck, hv]
  · refine exec_fail (st := .readOnly) hf ?_
    rw [checkOf_of_isTransfer hi]
    simp [windowCheck, hv, hwrite, hw]
  · refine exec_fail (st := .resourceExhausted) hf ?_
    rw [checkOf_of_isTransfer hi, windowCheck, if_pos hv, if_pos hw]
    simp [roomCheck, State.exhausted_iff.2 hroom]
  · refine exec_raise (c := .devRange) hf ?_
    rw [checkOf_of_isTransfer hi, windowCheck, if_pos hv, if_pos hw]
    simp [roomCheck, State.not_exhausted_iff.2 hroom, State.pastDevice_iff.2 ⟨hone, hdev⟩]

/-- An open inside the bound has its effect (41_window.md R121, R122). -/
theorem openCheck_run_of_fits {a len : Half} (s : State) (ha : a.toNat ≤ 65534)
    (hend : a.toNat + len.toNat ≤ 65534) : openCheck a len s = .run :=
  openCheck_run.2 (windowFits_iff.2 ⟨ha, hend⟩)

/-- An open outside the bound raises `Fault(WIN_BOUNDS)` (41_window.md R121, R122). -/
theorem openCheck_raise {a len : Half} (s : State)
    (h : ¬(a.toNat ≤ 65534 ∧ a.toNat + len.toNat ≤ 65534)) :
    openCheck a len s = .raise .winBounds :=
  if_neg (mt windowFits_iff.1 h)

/-- A seek past the window ends OUT_OF_RANGE (41_window.md R124). -/
theorem seekCheck_fail {c : Half} {s : State} (hv : s.valid = true)
    (hc : s.length.toNat < c.toNat) : seekCheck c s = .fail .outOfRange := by
  simp [seekCheck, windowCheck, hv, hc]

theorem windowCheck_noCheck {s : State} (hv : s.valid = true) : windowCheck noCheck s = .run :=
  if_pos hv

/-! ## What a window command leaves -/

/-- The cursor after a transfer, as the integer sum of R127–R130. -/
theorem cursor_add_count (c : Half) (n : Nat) :
    c + BitVec.ofNat 16 n = BitVec.ofNat 16 (c.toNat + n) := by
  rw [BitVec.ofNat_add, BitVec.ofNat_toNat, BitVec.setWidth_eq]

/-- The bytes read depend on the device alone (20_memory.md R55). -/
theorem State.readBytes_congr {s t : State} (h : s.device = t.device) (a count : Nat) :
    (s.readBytes a count).1 = (t.readBytes a count).1 := by
  simp only [State.readBytes_eq_map, State.byteAt, h]

/-- A typed read that fits, from an unfaulted block: the whole state it leaves (41_window.md R127). -/
theorem exec_winRd {w : Width} {s : State} (hf : s.fault = false) (h : TransferFits w.bytes s) :
    exec (.winRd w) s = .next
      { ({ s with
          rdata := valueOf (s.readBytes s.base w.bytes).1
          cursor := BitVec.ofNat 16 (s.cursor.toNat + w.bytes) } : State).answered 0 with
        accesses := (List.range w.bytes).map fun k =>
          .read (s.start.toNat + s.cursor.toNat + k) } := by
  rw [exec_run (i := .winRd w) hf h.readCheck, effectOf, State.memRead, State.readBytes_state,
    State.base_startCommand, State.readBytes_congr s.startCommand_device, readsFrom_eq_map,
    ← cursor_add_count]
  rfl

/-- An array read that fits, from an unfaulted block: the whole state it leaves
(41_window.md R129). -/
theorem exec_winRdb {k : Half} {s : State} (hf : s.fault = false) (h : TransferFits k.toNat s) :
    exec (.winRdb k) s = .next
      { s with
        status := 0
        cursor := BitVec.ofNat 16 (s.cursor.toNat + k.toNat)
        response := some ⟨0, s.rdata, (List.range k.toNat).map fun j =>
          s.byteAt (s.start.toNat + s.cursor.toNat + j)⟩
        accesses := (List.range k.toNat).map fun j =>
          .read (s.start.toNat + s.cursor.toNat + j) } := by
  rw [exec_run (i := .winRdb k) hf h.readCheck, effectOf,
    State.readBytes_state, State.readBytes_eq_map, readsFrom_eq_map, ← cursor_add_count]
  rfl

/-- A write that fits, from an unfaulted block with a canonical device: its bytes stand at the cursor,
every other byte is the old one, and the whole state that it leaves (41_window.md R128, R130). -/
theorem exec_write_bytes {i : Instr} {bytes : List Byte} {s : State} (hi : i.isWrite = true)
    (hacc : accessesOf i s = writesFrom s.base bytes) (hcount : i.count = bytes.length)
    (hdev : s.device.wf = true) (hf : s.fault = false) (hw : s.writable = true)
    (hfit : TransferFits i.count s) :
    ∃ t, exec i s = .next t ∧
      (∀ (k : Nat) (h : k < bytes.length),
        t.byteAt (s.start.toNat + s.cursor.toNat + k) = bytes[k]) ∧
      (∀ a, ¬(s.start.toNat + s.cursor.toNat ≤ a ∧
          a < s.start.toNat + s.cursor.toNat + bytes.length) → t.byteAt a = s.byteAt a) ∧
      t = { ({ s with
          device := t.device
          cursor := BitVec.ofNat 16 (s.cursor.toNat + bytes.length) } : State).answered 0 with
        accesses := writesFrom (s.start.toNat + s.cursor.toNat) bytes } := by
  refine ⟨_, exec_write hi hf hw hfit, ?_, ?_, ?_⟩
  · intro k hk
    simp only [State.byteAt, hacc]
    exact Memory.read_writesFrom_inside hdev s.base hk
  · intro a ha
    simp only [State.byteAt, hacc]
    exact Memory.read_writesFrom_outside hdev ha
  · rw [hacc, hcount, cursor_add_count]
    rfl

/-- The writes of a value's bytes, as a list (20_memory.md R56). -/
theorem writesFrom_bytesOf (a n : Nat) (v : Data) :
    writesFrom a (bytesOf n v) =
      (List.range n).map fun k => .write (a + k) (v.extractLsb' (8 * k) 8) := by
  rw [writesFrom_eq_mapIdx, bytesOf_eq_map]
  apply List.ext_getElem <;> simp

/-- A transfer that has its effect advances the cursor by its count (41_window.md R132). -/
theorem effectOf_cursor {i : Instr} (hi : i.isTransfer = true) (s : State) :
    (effectOf i s).cursor = s.cursor + BitVec.ofNat 16 i.count := by
  cases i with
  | winRd _ | winRdb _ => simp [effectOf, State.memRead, State.readBytes_state, Instr.count]
  | winWr _ _ | winWrb _ => exact congrArg State.cursor (effectOf_write rfl s)
  | _ => cases hi

/-- `AVAILABLE` is the integer difference while the cursor is inside the window (10_state.md R26). -/
theorem State.available_setWidth {s : State} (h : s.cursor.toNat ≤ s.length.toNat) :
    s.available.setWidth 64 = BitVec.ofNat 64 (s.length.toNat - s.cursor.toNat) := by
  apply BitVec.eq_of_toNat_eq
  rw [State.available, BitVec.toNat_setWidth, BitVec.toNat_sub_of_le h, BitVec.toNat_ofNat]

/-- The bytes at the written range are the byte list that was written (20_memory.md R61). -/
theorem Memory.map_read_writesFrom {m : Memory} (h : m.wf = true) (a : Nat) (bytes : List Byte) :
    ((List.range bytes.length).map fun k => (m.perform (writesFrom a bytes)).read (a + k)) =
      bytes := by
  apply List.ext_getElem
  · simp
  · intro k _ hk
    simp [Memory.read_writesFrom_inside h a hk]

/-- A field of a packed register is what its bits are (41_window.md R131). -/
theorem extractLsb'_eq_of_getLsbD {w lo n : Nat} {x : BitVec w} {r : BitVec n}
    (h : ∀ k < n, x.getLsbD (lo + k) = r.getLsbD k) : x.extractLsb' lo n = r := by
  apply BitVec.eq_of_getLsbD_eq
  intro k hk
  simp [hk, h k hk]

/-! ## The accumulator -/

/-- The checks of a command do not read `ACC`. -/
theorem checkOf_setAcc (i : Instr) (s : State) (v : Word) : checkOf i (s.setAcc v) = checkOf i s := by
  cases i <;> rfl

/-- The effect of a window command neither reads nor writes `ACC` (41_window.md R133). -/
theorem effectOf_setAcc {i : Instr} (hi : i.isWindow = true) (s : State) (v : Word) :
    effectOf i (s.setAcc v) = (effectOf i s).setAcc v := by
  have hbase : (s.setAcc v).base = s.base := rfl
  have hbytes (n : Nat) : ((s.setAcc v).readBytes s.base n).1 = (s.readBytes s.base n).1 :=
    State.readBytes_congr (s.setAcc_device v) s.base n
  cases i with
  | winRd w =>
    simp only [effectOf, State.memRead, State.readBytes_state, hbase, hbytes]
    rfl
  | winRdb k =>
    simp only [effectOf, State.readBytes_state, hbase, hbytes]
    rfl
  | winWr _ _ | winWrb _ =>
    simp only [effectOf, State.memWrite, State.writeBytes_state, hbase]
    rfl
  | winOpenR _ _ | winOpenRw _ _ | winClose | winSeek _ | winTell | winAvail | winInfo => rfl
  | _ => cases hi

/-- A window command does the same over every accumulator, however it ends (41_window.md R133). -/
theorem exec_setAcc {i : Instr} (hi : i.isWindow = true) (s : State) (v : Word) :
    exec i (s.setAcc v) = mapNext (State.setAcc · v) (exec i s) := by
  rcases exec_cases i s with ⟨hf, hne, h⟩ | ⟨hf, hc, h⟩ | ⟨st, hf, hc, h⟩ | ⟨c, hf, hc, h⟩ <;>
    rw [h]
  · exact exec_faulted (s := s.setAcc v) hne hf
  · have hf : s.fault = false := hf.resolve_left (by rintro rfl; cases hi)
    rw [exec_run (s := s.setAcc v) hf ((checkOf_setAcc i s v).trans hc)]
    exact congrArg _ (effectOf_setAcc hi s.startCommand v)
  · exact exec_fail (s := s.setAcc v) hf ((checkOf_setAcc i s v).trans hc)
  · exact exec_raise (s := s.setAcc v) hf ((checkOf_setAcc i s v).trans hc)

/-! ## The statements of 41_window.md -/

/-- Settles O13: the value read is put together from the device's bytes, and has no others. -/
theorem typedReadReturnsLittleEndianBytes : Obligations.TypedReadReturnsLittleEndianBytes := by
  intro w s d
  have hcmd : (Instr.winRd w).cmd = (w.field.setWidth 32 <<< 8) ||| 0x16 := cmdWord_n _ _
  rw [← hcmd]
  refine ⟨decode_cmd (.winRd w) (Nat.zero_le _) d, fun hf hfit => ?_, transferStops_cmd rfl,
    exec_of_isWindow_faulted rfl⟩
  have hlen : (s.readBytes s.base w.bytes).1.length = w.bytes := State.length_readBytes s _ _
  refine ⟨_, exec_winRd hf hfit, fun k hk => ?_, ?_, rfl⟩
  · have hbyte : (s.readBytes s.base w.bytes).1[k] = s.byteAt (s.base + k) := by
      simp [State.readBytes_eq_map]
    exact (extractLsb'_valueOf (hlen.trans_le w.bytes_le) (hlen.symm ▸ hk)).trans hbyte
  · simpa [State.answered] using valueOf_lt (s.readBytes s.base w.bytes).1

/-- Settles O14: the bytes of the value are the byte list that the write leaves at the cursor. -/
theorem typedWriteStoresLittleEndianBytes : Obligations.TypedWriteStoresLittleEndianBytes := by
  intro w v s d
  have hcmd : (Instr.winWr w v).cmd = (w.field.setWidth 32 <<< 8) ||| 0x17 := cmdWord_n _ _
  rw [← hcmd]
  refine ⟨decode_cmd (.winWr w v) (Nat.zero_le _) d, fun hdev hf hw hfit => ?_,
    transferStops_cmd rfl, exec_of_isWindow_faulted rfl⟩
  obtain ⟨t, ht, hinside, houtside, hframe⟩ := exec_write_bytes (i := .winWr w v) rfl rfl
    (length_bytesOf w.bytes v).symm hdev hf hw hfit
  rw [length_bytesOf] at houtside
  rw [length_bytesOf, writesFrom_bytesOf] at hframe
  refine ⟨t, ht, fun k hk => ?_, houtside, hframe⟩
  rw [hinside k (by simpa using hk)]
  simp [bytesOf_eq_map]

/-- Settles O15: the bytes of the response are those of the reads. -/
theorem arrayReadReturnsTheBytes : Obligations.ArrayReadReturnsTheBytes := by
  intro k s d
  have hcmd : (Instr.winRdb k).cmd = (k.setWidth 32 <<< 16) ||| 0x18 := cmdWord_a _ _
  rw [← hcmd]
  exact ⟨decode_cmd (.winRdb k) (Nat.zero_le _) d, exec_winRdb, transferStops_cmd rfl,
    exec_of_isWindow_faulted rfl⟩

/-- Settles O16: the byte list is what the write leaves at the cursor. -/
theorem arrayWriteStoresTheBytes : Obligations.ArrayWriteStoresTheBytes := by
  intro bytes s d hlen
  rw [← cmd_winWrb hlen]
  refine ⟨decode_cmd (.winWrb bytes) hlen d, fun hdev hf hw hfit => ?_, transferStops_cmd rfl,
    exec_of_isWindow_faulted rfl⟩
  rw [← writesFrom_eq_mapIdx]
  exact exec_write_bytes rfl rfl rfl hdev hf hw hfit

/-- Settles O40: a transfer has its effect, which makes one access a byte and advances the cursor, or
its checks end it with another status than OK. -/
theorem transfersAreAllOrNothing : Obligations.TransfersAreAllOrNothing := by
  intro i s t hi ht
  have hfaulted : Status.faulted.code ≠ 0 := by decide
  rcases exec_cases i s with ⟨_, _, h⟩ | ⟨_, _, h⟩ | ⟨st, _, hc, h⟩ | ⟨_, _, _, h⟩
  all_goals
    rw [h] at ht
    cases ht
  · exact .inr ⟨hfaulted, rfl, rfl, rfl⟩
  · refine .inl ⟨effectOf_status _ _, ?_, effectOf_cursor hi s.startCommand⟩
    rw [effectOf_accesses]
    exact accessesOf_addr s.startCommand
  · exact .inr ⟨code_ne_zero_of_checkOf_fail hi hc, rfl, rfl, rfl⟩
  · exact .inr ⟨hfaulted, rfl, rfl, rfl⟩

/-- Settles O45: the check for a window comes first, and no command without it ends with a failure
status of its own. -/
theorem noWindowStopsWindowCommands : Obligations.NoWindowStopsWindowCommands := by
  refine fun i s => ⟨exec_of_needsWindow, fun hi t ht => ?_⟩
  rcases exec_cases i s with ⟨_, _, h⟩ | ⟨_, _, h⟩ | ⟨_, _, hc, _⟩ | ⟨_, _, _, h⟩
  case inr.inr.inl => exact absurd (needsWindow_of_checkOf_fail hc) (by simp [hi])
  all_goals
    rw [h] at ht
    cases ht
    simp [Status.code]

/-- Settles O46: the second half is the first over the accumulator that the state has already. -/
theorem windowCommandsIgnoreTheAccumulator : Obligations.WindowCommandsIgnoreTheAccumulator := by
  refine fun i s v hi => ⟨exec_setAcc hi s v, fun t ht => ?_⟩
  have hsame : exec i s = mapNext (State.setAcc · s.acc) (exec i s) := exec_setAcc hi s s.acc
  rw [ht] at hsame
  injection hsame with hsame
  rw [hsame]
  rfl

/-- Settles O55: the write and the seek back leave the transfer fitting and the bytes at the cursor. -/
theorem arrayReadReturnsWhatWasWritten : Obligations.ArrayReadReturnsWhatWasWritten := by
  intro bytes s rest hlen hinv hf hw hfit hs
  have hk : (BitVec.ofNat 16 bytes.length).toNat = bytes.length :=
    Nat.mod_eq_of_lt (Nat.lt_succ_of_le hlen)
  have hback := runSteps_write_seek (i := .winWrb bytes)
    (rest := issue [.winRdb (BitVec.ofNat 16 bytes.length)] ++ rest) rfl
    (decode_encode (Instr.wellFormed_winWrb.2 hlen)) hf hw hfit hs 1
  have hread := runSteps_issued (s := ({ s with
      device := s.device.perform (accessesOf (.winWrb bytes) s)
      inputs := issue [.winRdb (BitVec.ofNat 16 bytes.length)] ++ rest } : State).answered 0)
    rfl (decode_encode rfl) (exec_winRdb hf (hk.symm ▸ hfit)) 0
  refine ⟨_, hback.trans hread, rfl, ?_⟩
  rw [hk]
  exact congrArg (fun bs => some (⟨0, s.rdata, bs⟩ : Response))
    (Memory.map_read_writesFrom hinv.canonical s.base bytes)

/-- Settles O7: the check of the bound decides between the effect and the fault. -/
theorem openReadOnlySetsTheWindow : Obligations.OpenReadOnlySetsTheWindow := by
  intro a len s d
  have hcmd : (Instr.winOpenR a len).cmd = (a.setWidth 32 <<< 16) ||| 0x10 := cmdWord_a _ _
  rw [← hcmd]
  exact ⟨decode_cmd (.winOpenR a len) (Nat.zero_le _) d,
    fun hf ha hend => exec_run hf (openCheck_run_of_fits s ha hend),
    fun hf hout => exec_raise (i := .winOpenR a len) hf (openCheck_raise s hout),
    exec_of_isWindow_faulted rfl⟩

/-- Settles O8: the check of the bound decides here too, and the window opened is writable. -/
theorem openReadWriteSetsTheWindow : Obligations.OpenReadWriteSetsTheWindow := by
  intro a len s d
  have hcmd : (Instr.winOpenRw a len).cmd = (a.setWidth 32 <<< 16) ||| 0x11 := cmdWord_a _ _
  rw [← hcmd]
  exact ⟨decode_cmd (.winOpenRw a len) (Nat.zero_le _) d,
    fun hf ha hend => exec_run hf (openCheck_run_of_fits s ha hend),
    fun hf hout => exec_raise (i := .winOpenRw a len) hf (openCheck_raise s hout),
    exec_of_isWindow_faulted rfl⟩

/-- Settles O9: the command has no check of its own. -/
theorem closeClearsTheWindow : Obligations.CloseClearsTheWindow :=
  fun _ d => ⟨decode_cmd .winClose (Nat.zero_le _) d, fun hf => exec_run hf rfl,
    exec_of_isWindow_faulted rfl⟩

/-- Settles O10: the check for a window comes first, then the one of the new cursor. -/
theorem seekMovesTheCursorInsideTheWindow : Obligations.SeekMovesTheCursorInsideTheWindow := by
  intro c s d
  have hcmd : (Instr.winSeek c).cmd = (c.setWidth 32 <<< 16) ||| 0x13 := cmdWord_a _ _
  rw [← hcmd]
  exact ⟨decode_cmd (.winSeek c) (Nat.zero_le _) d, exec_winSeek,
    fun hf hv hc => exec_fail (i := .winSeek c) hf (seekCheck_fail hv hc), exec_of_needsWindow rfl,
    exec_of_isWindow_faulted rfl⟩

/-- Settles O11: with a window the command has its effect. -/
theorem tellReadsTheCursor : Obligations.TellReadsTheCursor :=
  fun _ d => ⟨decode_cmd .winTell (Nat.zero_le _) d,
    fun hf hv => exec_run hf (windowCheck_noCheck hv), exec_of_needsWindow rfl,
    exec_of_isWindow_faulted rfl⟩

/-- Settles O12: the 16-bit difference is the integer one, the cursor being inside the window. -/
theorem availReadsTheBytesLeft : Obligations.AvailReadsTheBytesLeft := by
  refine fun s d => ⟨decode_cmd .winAvail (Nat.zero_le _) d, fun hf hv hc => ?_,
    exec_of_needsWindow rfl, exec_of_isWindow_faulted rfl⟩
  rw [← State.available_setWidth hc]
  exact exec_run hf (windowCheck_noCheck hv)

/-- Settles O17: the registers stand at their bits of the packed value. -/
theorem infoPacksTheWindowRegisters : Obligations.InfoPacksTheWindowRegisters := by
  refine fun s d => ⟨decode_cmd .winInfo (Nat.zero_le _) d, fun hf => ?_,
    exec_of_isWindow_faulted rfl⟩
  refine ⟨_, exec_run hf rfl, ?_, ?_, ?_, s.getLsbD_windowInfo 48, s.getLsbD_windowInfo 49, ?_,
    rfl⟩
  all_goals
    refine extractLsb'_eq_of_getLsbD fun k hk => ?_
    refine (s.getLsbD_windowInfo _).trans ?_
  · simp [hk]
  · simp [hk, show 16 + k < 32 by omega]
  · simp [hk, show ¬32 + k < 16 by omega, show 32 + k < 48 by omega]
  · simp [show ¬50 + k < 16 by omega, show ¬50 + k < 32 by omega, show ¬50 + k < 48 by omega,
      show ¬50 + k = 48 by omega, show ¬50 + k = 49 by omega]

end Sys2Proof.Machine
end

section
/-! SUPPORT. How an undefined transaction ends; then the statements of 42_system.md. -/

namespace Sys2Proof.Machine

/-- A transaction that decodes to no command ends with a status and changes nothing else
(42_system.md R162; 60_exceptions.md R175). -/
theorem transact_undefined {tx : Transaction} {e : Undefined} (hd : decode tx = .error e)
    (s : State) : transact tx s = .next (s.answered (if s.fault then 6 else 5)) := by
  rw [transact, hd]
  cases s.fault <;> rfl

/-! ## The statements of 42_system.md -/

/-- Settles O1: the command has no check and no effect of its own. -/
theorem nopChangesOnlyStatus : Obligations.NopChangesOnlyStatus := by
  refine fun s d => ⟨decode_cmd .nop (Nat.zero_le _) d, ?_⟩
  cases hf : s.fault with
  | false => exact exec_run hf rfl
  | true => exact exec_faulted nofun hf

/-- Settles O18: the registers stand at their bits of the packed value, and the command has its
effect whether the block is faulted or not. -/
theorem fstatPacksTheFaultRegisters : Obligations.FstatPacksTheFaultRegisters := by
  refine fun s d => ⟨decode_cmd .blkFstat (Nat.zero_le _) d, ?_⟩
  refine ⟨_, exec_blkFstat s, ?_, ?_, s.getLsbD_faultInfo 40, ?_, rfl⟩
  all_goals
    refine extractLsb'_eq_of_getLsbD fun k hk => ?_
    refine (s.getLsbD_faultInfo _).trans ?_
  · simp [hk]
  · simp [show 32 + k < 40 by omega]
  · simp [show ¬41 + k < 32 by omega, show ¬41 + k < 40 by omega, show ¬41 + k = 40 by omega]

/-- Settles O32: the step takes the transaction, which ends with the one status or the other. -/
theorem undefinedTransactionEndsIllegal : Obligations.UndefinedTransactionEndsIllegal := by
  intro s tx rest e hs hd
  rw [step_cons hs, takeInput, transact_undefined hd]
  exact ⟨fun hf => by simp [hf], fun hf => by simp [hf]⟩

end Sys2Proof.Machine
end

section
/-! SUPPORT. What a faulted block answers to each input, and how a block comes to be faulted; then the
statements of 60_exceptions.md. -/

namespace Sys2Proof.Machine

/-! ## The end of a command -/

/-- A check that ends a command does not end it OK (60_exceptions.md R170, R178). -/
theorem checkOf_fail_code_ne_zero {i : Instr} {s : State} {st : Status}
    (h : checkOf i s = .fail st) : st.code ≠ 0 := by
  cases i with
  | winRd _ | winWr _ _ | winRdb _ | winWrb _ => exact code_ne_zero_of_checkOf_fail rfl h
  | winSeek c =>
    simp only [checkOf, seekCheck, windowCheck] at h
    split_ifs at h <;> cases h <;> nofun
  | winTell | winAvail =>
    simp only [checkOf, windowCheck, noCheck] at h
    split_ifs at h
    cases h
    nofun
  | _ => cases needsWindow_of_checkOf_fail h

/-- The two causes (60_exceptions.md R173). -/
theorem FaultCause.code_eq (c : FaultCause) : c.code = 1 ∨ c.code = 2 := by
  cases c <;> decide

/-! ## The faulted block -/

/-- The transactions that decode to `blk.fstat`, whatever their `WDATA` (60_exceptions.md R175). -/
theorem decode_eq_blkFstat_iff {tx : Transaction} :
    decode tx = .ok .blkFstat ↔ tx.cmd = 0x00000030 ∧ tx.wbytes = [] := by
  constructor
  · intro h
    obtain ⟨_, hcmd, hbytes⟩ := matches_of_decode h
    exact ⟨hcmd.symm, hbytes.symm⟩
  · obtain ⟨cmd, wdata, wbytes⟩ := tx
    rintro ⟨rfl, rfl⟩
    exact decode_cmd .blkFstat (Nat.zero_le _) wdata

/-- A faulted block ends every transaction but `blk.fstat` FAULTED, defined or not
(60_exceptions.md R175). -/
theorem transact_faulted {tx : Transaction} {s : State} (hf : s.fault = true)
    (hd : decode tx ≠ .ok .blkFstat) : transact tx s = .next (s.answered 6) := by
  rcases transact_cases tx s with ⟨i, hi, h⟩ | ⟨e, he, _⟩
  · rw [h]
    exact exec_faulted (by rintro rfl; exact hd hi) hf
  · rw [transact_undefined he, if_pos hf]

/-- No transaction leaves the faulted state or changes its record (60_exceptions.md R176). -/
theorem transact_keeps_fault {tx : Transaction} {s t : State} (hf : s.fault = true)
    (h : transact tx s = .next t) :
    t.fault = true ∧ t.faultCause = s.faultCause ∧ t.faultCmd = s.faultCmd := by
  by_cases hd : decode tx = .ok .blkFstat
  · rw [transact, hd] at h
    cases h
    exact ⟨hf, rfl, rfl⟩
  · rw [transact_faulted hf hd] at h
    cases h
    exact ⟨hf, rfl, rfl⟩

/-- A host write changes the device and nothing else (20_memory.md R69). -/
theorem eq_of_hostWrite {a : Half} {v : Byte} {s t : State} (h : hostWrite a v s = .next t) :
    t = { s with device := s.device.write a.toNat v } := by
  unfold hostWrite at h
  split at h <;> cases h
  rfl

/-- An interrupted transaction leaves the block unfaulted (70_reset_and_hazards.md R200, R202). -/
theorem interrupt_clears_fault {tx : Transaction} {cut : List Access → List Access} {s t : State}
    (h : interrupt tx cut s = .next t) : t.fault = false ∧ t.faultCause = 0 ∧ t.faultCmd = 0 := by
  obtain ⟨u, hu⟩ := transact_next tx s
  rw [interrupt_eq hu] at h
  cases h
  exact ⟨rfl, rfl, rfl⟩

/-- Every reset and every power loss, between commands or during one, clears the fault registers
(60_exceptions.md R176). -/
theorem takeInput_clears_fault {x : Input} {s t : State} (hx : x.isReset = true)
    (h : takeInput x s = .next t) : t.fault = false ∧ t.faultCause = 0 ∧ t.faultCmd = 0 := by
  cases x with
  | reset | powerLoss =>
    cases h
    exact ⟨rfl, rfl, rfl⟩
  | resetDuring tx transferred => exact interrupt_clears_fault h
  | powerLossDuring tx done => exact interrupt_clears_fault h
  | command _ | hostWrite _ _ => cases hx

/-- Every other input keeps the fault registers of a faulted block (60_exceptions.md R176). -/
theorem takeInput_keeps_fault {x : Input} {s t : State} (hx : x.isReset = false)
    (hf : s.fault = true) (h : takeInput x s = .next t) :
    t.fault = true ∧ t.faultCause = s.faultCause ∧ t.faultCmd = s.faultCmd := by
  cases x with
  | command tx => exact transact_keeps_fault hf h
  | hostWrite a v =>
    obtain rfl := eq_of_hostWrite h
    exact ⟨hf, rfl, rfl⟩
  | reset | powerLoss | resetDuring _ _ | powerLossDuring _ _ => cases hx

/-! ## Fault entry -/

/-- A command that faults an unfaulted block does so by its own checks, and leaves everything but the
record and the answer as it was (60_exceptions.md R174). -/
theorem exec_enters_fault {i : Instr} {s t : State} (hf : s.fault = false)
    (h : exec i s = .next t) (ht : t.fault = true) :
    ∃ c, checkOf i s = .raise c ∧ t = s.faultedBy c.code i.cmd := by
  rcases exec_next_cases h with ⟨st, rfl⟩ | ⟨_, rfl⟩ | ⟨c, hc, rfl⟩
  · cases hf.symm.trans ht
  · rw [effectOf_fault] at ht
    cases hf.symm.trans ht
  · exact ⟨c, hc, rfl⟩

/-- A transaction that faults an unfaulted block is a command's, whose checks raise the fault and whose
word is the transaction's (60_exceptions.md R174). -/
theorem transact_enters_fault {tx : Transaction} {s t : State} (hf : s.fault = false)
    (h : transact tx s = .next t) (ht : t.fault = true) :
    ∃ i c, checkOf i s = .raise c ∧ i.cmd = tx.cmd ∧ t = s.faultedBy c.code tx.cmd := by
  rcases transact_cases tx s with ⟨i, hi, hexec⟩ | ⟨e, he, _⟩
  · obtain ⟨_, hcmd, _⟩ := matches_of_decode hi
    obtain ⟨c, hc, rfl⟩ := exec_enters_fault hf (hexec.symm.trans h) ht
    exact ⟨i, c, hc, hcmd, by rw [hcmd]⟩
  · rw [transact_undefined he] at h
    cases h
    cases hf.symm.trans ht

/-- Only a transaction faults an unfaulted block (60_exceptions.md R174). -/
theorem step_enters_fault {s t : State} (hf : s.fault = false) (h : step s = .next t)
    (ht : t.fault = true) :
    ∃ tx rest, s.inputs = .command tx :: rest ∧ transact tx { s with inputs := rest } = .next t := by
  rcases step_cases s with ⟨_, hs⟩ | ⟨tx, rest, hin, hs⟩ | ⟨_, _, _, _, hs⟩ |
      ⟨_, _, _, _, _, _, _, _, hs⟩ | ⟨_, _, _, _, _, hs⟩ | ⟨_, _, _, _, _, hs⟩ <;> rw [hs] at h
  · cases h
    cases hf.symm.trans ht
  · exact ⟨tx, rest, hin, h⟩
  · cases h
    cases ht
  · cases h
    cases ht
  · cases h
    cases hf.symm.trans ht
  · cases h

/-! ## The statements of 60_exceptions.md -/

/-- Settles O33: the word and the byte list decide whether the transaction is `blk.fstat`. -/
theorem faultedBlockRunsOnlyFstat : Obligations.FaultedBlockRunsOnlyFstat := by
  intro s tx rest hs hf
  refine ⟨fun hne => ?_, fun hcmd hbytes => ?_⟩
  · rw [step_cons hs]
    exact transact_faulted hf (mt decode_eq_blkFstat_iff.1 hne)
  · exact stepRunsTheDecodedCommand s tx rest .blkFstat hs
      (decode_eq_blkFstat_iff.2 ⟨hcmd, hbytes⟩)

/-- Settles O39, by the four ways a command can go: the fault block and a failed check both end it with
a status alone. -/
theorem commandEndsInOneOfThreeWays : Obligations.CommandEndsInOneOfThreeWays := by
  intro i s
  rcases exec_cases i s with ⟨_, _, h⟩ | ⟨_, _, h⟩ | ⟨st, _, hc, h⟩ | ⟨c, hf, _, h⟩
  · exact ⟨_, h, .inr (.inl ⟨nofun, Status.code_le .faulted, rfl⟩)⟩
  · exact ⟨_, h, .inl ⟨effectOf_status i _, effectOf_fault i _, effectOf_faultCause i _,
      effectOf_faultCmd i _⟩⟩
  · exact ⟨_, h, .inr (.inl ⟨checkOf_fail_code_ne_zero hc, st.code_le, rfl⟩)⟩
  · exact ⟨_, h, .inr (.inr ⟨hf, c.code, c.code_eq, rfl⟩)⟩

/-- Settles O48, input by input. -/
theorem onlyResetLeavesTheFaultedState : Obligations.OnlyResetLeavesTheFaultedState := by
  intro s t x rest hs hf h
  rw [step_cons hs] at h
  exact ⟨fun hx => takeInput_clears_fault hx h, fun hx =>
    takeInput_keeps_fault (s := { s with inputs := rest }) hx hf h⟩

/-- Settles O49: the command whose checks raise the fault has the transaction's word, and its opcode
gives the cause. -/
theorem faultEntryRecordsTheWordOfTheTransaction :
    Obligations.FaultEntryRecordsTheWordOfTheTransaction := by
  intro s t hf h ht
  obtain ⟨tx, rest, hin, htx⟩ := step_enters_fault hf h ht
  obtain ⟨i, c, hc, hcmd, rfl⟩ := transact_enters_fault (s := { s with inputs := rest }) hf htx ht
  refine ⟨tx, rest, hin, ?_⟩
  rw [← hcmd]
  rcases checkOf_raise hc with ⟨rfl, hop⟩ | ⟨rfl, hop⟩
  · exact .inl ⟨rfl, hop⟩
  · exact .inr ⟨rfl, hop⟩

/-- Settles O34: a step with no input waiting is the idle step. -/
theorem idleBlockHoldsItsState : Obligations.IdleBlockHoldsItsState := by
  intro s hs
  unfold step
  rw [hs]

end Sys2Proof.Machine
end

section
/-! SUPPORT. What the first accesses of a command leave of its bytes, and what an input that interrupts
it does; then the statements of 70_reset_and_hazards.md. -/

namespace Sys2Proof.Machine

/-! ## The first accesses of a command -/

/-- After the first `done` writes of a byte list, the bytes below the cut are those of the whole write
and the others are the old ones (70_reset_and_hazards.md R202). -/
theorem Memory.read_take_writesFrom {m : Memory} (h : m.wf = true) (a done : Nat) (bytes : List Byte)
    (b : Nat) : (m.perform ((writesFrom a bytes).take done)).read b =
      if b < a + done then (m.perform (writesFrom a bytes)).read b else m.read b := by
  rw [take_writesFrom, Memory.read_writesFrom h, Memory.read_writesFrom h]
  by_cases hab : a ≤ b
  · rw [if_pos hab, if_pos hab, List.getElem?_take]
    by_cases hb : b < a + done
    · rw [if_pos hb, if_pos (by omega)]
    · rw [if_neg hb, if_neg (by omega)]
      rfl
  · rw [if_neg hab, if_neg hab, ite_self]

/-- A byte inside the written range is the list's below the cut and the old one from there on. -/
theorem Memory.read_take_writesFrom_inside {m : Memory} (h : m.wf = true) (a done : Nat)
    {bytes : List Byte} {k : Nat} (hk : k < bytes.length) :
    (m.perform ((writesFrom a bytes).take done)).read (a + k) =
      if k < done then bytes[k] else m.read (a + k) := by
  rw [Memory.read_take_writesFrom h, Memory.read_writesFrom_inside h a hk]
  simp only [Nat.add_lt_add_iff_left]

/-- A byte outside the written range is the old one, wherever the cut is. -/
theorem Memory.read_take_writesFrom_outside {m : Memory} (h : m.wf = true) {a b : Nat} (done : Nat)
    {bytes : List Byte} (hb : ¬(a ≤ b ∧ b < a + bytes.length)) :
    (m.perform ((writesFrom a bytes).take done)).read b = m.read b := by
  rw [Memory.read_take_writesFrom h, Memory.read_writesFrom_outside h hb, ite_self]

/-- A transaction's accesses are reads in ascending order or writes in ascending order
(20_memory.md R55, R56). -/
theorem transact_accesses_shape {tx : Transaction} {s t : State} (h : transact tx s = .next t) :
    (∃ a n, t.accesses = readsFrom a n) ∨ ∃ a bytes, t.accesses = writesFrom a bytes := by
  rcases transact_cases tx s with ⟨i, _, hi⟩ | ⟨_, _, he⟩
  · rcases exec_accesses (hi ▸ h) with hnil | ⟨hacc, _⟩
    · exact .inl ⟨0, 0, hnil⟩
    · rcases accessesOf_shape i s with ⟨n, hn⟩ | ⟨_, bytes, hbytes⟩
      · exact .inl ⟨_, n, hacc.trans hn⟩
      · exact .inr ⟨_, bytes, hacc.trans hbytes⟩
  · rw [he] at h
    cases h
    exact .inl ⟨0, 0, rfl⟩

/-- The first accesses of a transaction leave each byte old, or as the whole transaction leaves it. -/
theorem transact_read_take {tx : Transaction} {s u : State} (hm : s.device.wf = true)
    (hu : transact tx s = .next u) (done a : Nat) :
    (s.device.perform (u.accesses.take done)).read a = s.device.read a ∨
      (s.device.perform (u.accesses.take done)).read a = u.device.read a := by
  rcases transact_accesses_shape hu with ⟨b, n, hacc⟩ | ⟨b, bytes, hacc⟩
  · left
    rw [hacc, take_readsFrom, Memory.perform_readsFrom]
  · rw [transact_device hu, hacc, Memory.read_take_writesFrom hm]
    by_cases hcut : a < b + done
    · exact .inr (if_pos hcut)
    · exact .inl (if_neg hcut)

/-- An input that interrupts a transaction performs the first of its accesses and resets the block
(70_reset_and_hazards.md R200, R202). -/
theorem takeInput_interrupted {x : Input} {tx : Transaction} {s u : State}
    (hx : (∃ done, x = .powerLossDuring tx done) ∨ ∃ transferred, x = .resetDuring tx transferred)
    (hu : transact tx s = .next u) :
    ∃ done, takeInput x s = .next
      { ({ s with device := s.device.perform (u.accesses.take done) } : State).resetBlock with
        accesses := u.accesses.take done } := by
  rcases hx with ⟨done, rfl⟩ | ⟨transferred, rfl⟩
  · exact ⟨done, interrupt_eq hu _⟩
  · obtain ⟨done, hdone⟩ := resetCut_eq_take transferred u.accesses
    refine ⟨done, ?_⟩
    rw [← hdone]
    exact interrupt_eq hu _

/-- A power loss during a write that fits performs the first `done` of its writes and resets the block
(70_reset_and_hazards.md R202). -/
theorem takeInput_powerLossDuring_write {tx : Transaction} {i : Instr} {bytes : List Byte}
    {s : State} (hd : decode tx = .ok i) (hi : i.isWrite = true)
    (hacc : accessesOf i s = writesFrom s.base bytes) (hf : s.fault = false)
    (hw : s.writable = true) (hfit : TransferFits i.count s) (done : Nat) :
    takeInput (.powerLossDuring tx done) s = .next
      { ({ s with
          device := s.device.perform ((writesFrom s.base bytes).take done) } : State).resetBlock with
        accesses := (writesFrom s.base bytes).take done } := by
  have hu := exec_write hi hf hw hfit
  rw [hacc] at hu
  have htx : transact tx s = exec i s := by rw [transact, hd]
  exact interrupt_eq (htx.trans hu) _

/-- What a window write of these bytes is, in either form: a write of their number that makes their
writes from the cursor on (41_window.md R128, R130). -/
theorem isWrite_of_bytes {i : Instr} {bytes : List Byte}
    (h : i = .winWrb bytes ∨ ∃ w v, i = .winWr w v ∧ bytes = bytesOf w.bytes v) (s : State) :
    i.isWrite = true ∧ accessesOf i s = writesFrom s.base bytes ∧ i.count = bytes.length := by
  rcases h with rfl | ⟨w, v, rfl, rfl⟩
  · exact ⟨rfl, rfl, rfl⟩
  · exact ⟨rfl, rfl, (length_bytesOf w.bytes v).symm⟩

/-! ## The statements of 70_reset_and_hazards.md -/

/-- Settles O36: the bytes below the cut are those of the whole write, which are the list's. -/
theorem powerLossLeavesAPrefixOfTheWrite : Obligations.PowerLossLeavesAPrefixOfTheWrite := by
  intro s tx i bytes done rest hs hd hform hdev hf hw hfit
  obtain ⟨hi, hacc, hcount⟩ := isWrite_of_bytes hform { s with inputs := rest }
  rw [← hcount] at hfit
  exact ⟨_, (step_cons hs).trans (takeInput_powerLossDuring_write hd hi hacc hf hw hfit done),
    fun _ hk => Memory.read_take_writesFrom_inside hdev s.base done hk,
    fun _ ha => Memory.read_take_writesFrom_outside hdev done ha, rfl⟩

/-- Settles O37: the interrupted transaction makes the first accesses of the whole one, and the reset
of the block leaves the device as they do. -/
theorem interruptedCommandNeverMixesABytesValue :
    Obligations.InterruptedCommandNeverMixesABytesValue := by
  intro s x tx rest hdev hs hx
  obtain ⟨u, hu⟩ := transact_next tx { s with inputs := rest }
  obtain ⟨done, ht⟩ := takeInput_interrupted hx hu
  exact ⟨_, u, (step_cons hs).trans ht, hu,
    transact_read_take (s := { s with inputs := rest }) hdev hu done, done, rfl⟩

/-- Settles O41: a command that is no transfer has no accesses to make, and a transfer that ends OK makes
one at the address of each of its bytes. -/
theorem deviceAccessesAreCounted : Obligations.DeviceAccessesAreCounted := by
  refine fun i s t ht => ⟨fun hi => ?_, fun hi hst => ?_⟩
  · have hnone : t.accesses = [] := by
      rcases exec_accesses ht with hnil | ⟨hacc, _⟩
      · exact hnil
      · rw [hacc, accessesOf_of_not_transfer hi]
    refine ⟨hnone, ?_⟩
    rw [exec_device ht, hnone]
    rfl
  · rcases transfersAreAllOrNothing i s t hi ht with ⟨_, haddr, _⟩ | ⟨hne, _⟩
    · simpa using congrArg List.length haddr
    · exact absurd hst hne

/-- Settles O51: a transaction keeps the parameters, and so do the reset of the block and a host
write. -/
theorem parametersNeverChange : Obligations.ParametersNeverChange := by
  intro s t h
  rcases step_cases s with ⟨_, hs⟩ | ⟨tx, rest, _, hs⟩ | ⟨_, _, _, _, hs⟩ |
    ⟨_, _, _, _, _, _, _, _, hs⟩ | ⟨_, _, _, _, _, hs⟩ | ⟨_, _, _, _, _, hs⟩
  all_goals rw [hs] at h
  · cases h
    rfl
  · exact (transact_cfg h).1
  · cases h
    rfl
  · cases h
    rfl
  · cases h
    rfl
  · cases h

end Sys2Proof.Machine
end
